-- ==== Sys2Proof/Word.lean ====
section
/-! DEFINITION. The machine's two word types: the byte (a memory cell, a register, an operand, an ALU value)
and the program counter's word. -/

namespace Sys2Proof

/-- A byte, 0..255, always read as unsigned (00_scope.md R3 `XLEN`, R4). -/
abbrev Byte := BitVec 8

/-- The program counter's word: 9 bits, so that 256 is representable (10_state.md R18; log 3). -/
abbrev PcWord := BitVec 9

end Sys2Proof
end

