-- ==== Sys2Proof/Config.lean ====
section
/-! DEFINITION. The machine's parameters (00_scope.md R3). The twelve opcode values `OPC_<mnemonic>` of the same rule
stand in Sys2Proof/Decode.lean, beside the table that uses them. -/

namespace Sys2Proof

/-- `MEM_SIZE`: the number of memory cells, addresses 0..255 (00_scope.md R3). -/
def Config.memSize : Nat := 256

/-- `NREGS`: the number of registers, indices 0..7 (00_scope.md R3). -/
abbrev Config.numRegs : Nat := 8

/-- `MAX_ARITY`: the greatest operand count (00_scope.md R3). -/
def Config.maxArity : Nat := 2

/-- `REG_RESET`: the value of every register after power-on (00_scope.md R3, 10_state.md R14).
DESIGN CHOICE of the spec, log 1; unsafe. -/
def Config.regReset : Byte := 0

/-- The default of the parameter `LINE_TERM` (00_scope.md R3): the one character U+000A. The model's text function takes
the terminator as an argument, so nothing rests on this default (log 14). -/
def Config.defaultLineTerm : List Char := ['\n']

@[simp] theorem Config.memSize_eq : Config.memSize = 256 := rfl

end Sys2Proof
end

