-- ==== Sys2Proof/Machine/State.lean ====
section
/-! DEFINITION. The machine's whole state (10_state.md R10), the faults and refusals in which a step may end, and the
state after power-on. -/

namespace Sys2Proof.Machine

/-- The values of a fault's `address_kind` (60_exceptions.md R120, R121). -/
inductive AddressKind where
  | memory
  | register
  deriving DecidableEq, Repr

/-- The complete list of faults (60_exceptions.md R120). A fault stops the cycle, changes no state and is reported to the
caller (R129; log 9). Every one of them is a fault of the machine itself, so stopping there is exact, neither safe nor
unsafe, but where a constructor says otherwise. -/
inductive Fault where
  /-- Raised by a fetch, an operand fetch, a register access and the four host accessors when the index lies outside its
  domain (60_exceptions.md R121). -/
  | outOfBounds (addressKind : AddressKind) (index : Nat)
  /-- Raised by decode when the fetched byte is none of the twelve opcodes (R122). -/
  | invalidOpcode (byte : Byte) (programCounter : Nat)
  /-- Raised by the ALU when it is called by a name outside its supported set (R123); no instruction does so (log 19). -/
  | unsupportedOperation (name : String)
  /-- Raised by the host's `load_program` on more than 256 bytes (R125); no cycle raises it. -/
  | programTooLarge (length capacity : Nat)
  /-- Belongs to the external loader, outside the CORE (R126): listed so that the taxonomy is whole, raised by nothing
  here. -/
  | loadFailed (reason : String)
  /-- Raised by the ALU for DIV with a zero divisor (R124). The spec's own choice (D7), log 6; safe. -/
  | divideByZero
  deriving DecidableEq, Repr

/-- Why a step may be refused. -/
inductive Refusal where
  /-- Raised by an arm of `exec` whose instruction has no meaning yet. No arm is left so: nothing raises it (log 20).
  Safe: the machine would stop where the hardware goes on. -/
  | notModelled (mnemonic : String)
  deriving DecidableEq, Repr

/-- The engine state `ENG` (10_state.md R22). -/
inductive EngineState where
  | running
  | halted
  deriving DecidableEq, Repr

/-- Memory as plain data: (address, byte) pairs, addresses strictly rising, no entry equal to what an unlisted address
reads as (`Memory.wf`; log 18). -/
abbrev Memory := List Host.Cell

/-- The architectural state: exactly five items (10_state.md R10). -/
structure State where
  /-- `MEM`: 256 byte cells (R11). -/
  mem : Memory
  /-- `x`: 8 byte registers, none special (R12, R13). -/
  regs : Vector Byte Config.numRegs
  /-- `pc`: the address of the next instruction to fetch, reachable values 0..256 (R17, R18). -/
  pc : PcWord
  /-- `ENG` (R22). -/
  eng : EngineState
  /-- `OUT`: the values PRN emitted, oldest first (R25). -/
  out : List Byte
  deriving DecidableEq, Repr

/-- The state after power-on (70_reset_and_hazards.md R150). The registers' value is the spec's own choice (10_state.md
R14, D3): DESIGN CHOICE, log 1; unsafe. -/
def State.reset : State where
  mem := []
  regs := Vector.replicate Config.numRegs Config.regReset
  pc := 0
  eng := .running
  out := []

end Sys2Proof.Machine
end

