-- ==== Sys2Proof/Machine/Ops.lean ====
section
/-! DEFINITION. The operations over memory, registers, program counter, engine state and output log that every meaning
and every host operation is written with, and taking a fault. -/

namespace Sys2Proof.Machine

/-- What a step or a meaning answers. -/
abbrev StepOutcome := Host.Outcome State Fault Refusal

/-! ### Memory -/

/-- What an address no entry lists reads as: memory is zero-initialized (10_state.md R11). -/
def Memory.unlisted : Byte := 0

/-- The canonical form of memory: addresses strictly rising and inside the address space, no entry equal to what an
unlisted address reads as. Equal memories are then equal lists (log 18). -/
abbrev Memory.wf (m : Memory) : Prop :=
  m.Pairwise (fun c d => c.1 < d.1) ∧ ∀ c ∈ m, c.1 < Config.memSize ∧ c.2 ≠ Memory.unlisted

/-- The cell `MEM[a]`. -/
def Memory.read : Memory → Nat → Byte
  | [], _ => Memory.unlisted
  | c :: m, a => if c.1 = a then c.2 else Memory.read m a

/-- Memory with the address `a` unlisted. -/
def Memory.erase (m : Memory) (a : Nat) : Memory := m.filter (fun c => decide (c.1 ≠ a))

/-- Memory with one more entry, before the first one of a higher address. -/
def Memory.insertCell (a : Nat) (v : Byte) : Memory → Memory
  | [] => [(a, v)]
  | c :: m => if a < c.1 then (a, v) :: c :: m else c :: Memory.insertCell a v m

/-- `MEM[a] <- v`: no other cell changes (20_memory.md R32, R33). -/
def Memory.write (m : Memory) (a : Nat) (v : Byte) : Memory :=
  if v = Memory.unlisted then m.erase a else Memory.insertCell a v (m.erase a)

/-- Bytes written in order from the address `a` upward, those at addresses of the address space only. -/
def Memory.writeBytes (m : Memory) (a : Nat) : List Byte → Memory
  | [] => m
  | v :: vs => (if a < Config.memSize then m.write a v else m).writeBytes (a + 1) vs

/-- `MemRead(a, 1)`: the checked read of one byte (20_memory.md R31). -/
def State.memRead (s : State) (a : Nat) : Except Fault Byte :=
  if a < Config.memSize then .ok (s.mem.read a) else .error (.outOfBounds .memory a)

/-- `MemWrite(a, 1, v)`: the checked write of one byte, used by the host only (20_memory.md R32, R36). -/
def State.memWrite (s : State) (a : Nat) (v : Byte) : Except Fault State :=
  if a < Config.memSize then .ok { s with mem := s.mem.write a v } else .error (.outOfBounds .memory a)

/-! ### Registers -/

/-- `RegRead(i)`: the checked read of a register (20_memory.md R34). The index is never masked. -/
def State.readReg (s : State) (i : Nat) : Except Fault Byte :=
  if h : i < Config.numRegs then .ok s.regs[i] else .error (.outOfBounds .register i)

/-- `RegWrite(i, v)`: the checked write of a register, with no result of its own (20_memory.md R35). -/
def State.writeReg (s : State) (i : Nat) (v : Byte) : Except Fault State :=
  if h : i < Config.numRegs then .ok { s with regs := s.regs.set i v } else .error (.outOfBounds .register i)

/-! ### Engine state, output log, program counter -/

/-- `ENG <- e` (10_state.md R22). -/
def State.setEngine (s : State) (e : EngineState) : State := { s with eng := e }

/-- `OUT <- OUT ++ [v]` (10_state.md R25). -/
def State.emit (s : State) (v : Byte) : State := { s with out := s.out ++ [v] }

/-- Step 5 of the cycle, `pc <- A + 1 + n` (40_fetch_decode_dispatch.md R75): a 9-bit addition, which never overflows after
a fetch that succeeded (10_state.md R18). -/
def State.advance (s : State) (arity : Nat) : State := { s with pc := s.pc + BitVec.ofNat 9 (1 + arity) }

/-! ### Taking a fault, and completing -/

/-- Taking a fault (60_exceptions.md R129): the cycle stops and the fault is reported to the caller. There is no handler, no
saved register and no mode; no state is changed (40_fetch_decode_dispatch.md R78), so the state after the fault is the state
before the cycle, which the caller still has (log 9). There is no return from a fault (60_exceptions.md R130). -/
def takeFault (f : Fault) : StepOutcome := .fault f

/-- How step 4 ends: a fault is taken, and otherwise step 5 advances `pc` past the instruction
(40_fetch_decode_dispatch.md R74, R75). -/
def complete (arity : Nat) : Except Fault State → StepOutcome
  | .ok s => .next (s.advance arity)
  | .error f => takeFault f

end Sys2Proof.Machine
end

