-- ==== Sys2Proof/Machine/Operands.lean ====
section
/-! DEFINITION. The two operand forms: a register index and LDI's immediate (30_encoding.md R56, R58). -/

namespace Sys2Proof.Machine

/-- A register-index operand: the whole byte as an unsigned number, not masked, not reduced modulo 8
(30_encoding.md R56). -/
def regIndex (operand : Byte) : Nat := operand.toNat

/-- The immediate operand: the byte as it is, no extension, no scaling (30_encoding.md R58). -/
def immediate (operand : Byte) : Byte := operand

/-- The value of the register an operand names, or the fault of an operand that names none (30_encoding.md R56). -/
def State.readOperand (s : State) (operand : Byte) : Except Fault Byte := s.readReg (regIndex operand)

/-- A write of the register an operand names, or the fault of an operand that names none (30_encoding.md R56). -/
def State.writeOperand (s : State) (operand v : Byte) : Except Fault State := s.writeReg (regIndex operand) v

end Sys2Proof.Machine
end

