-- ==== Sys2Proof/Machine/Alu.lean ====
section
/-! DEFINITION. The ALU: a pure function of an operation selector and two bytes (42_alu.md R100, R101). -/

namespace Sys2Proof.Machine

/-- The ALU's supported operations (42_alu.md R100). -/
inductive AluOp where
  | add | sub | mul | div | and | or | xor | shl | shr
  deriving DecidableEq, Repr

/-- The exact mathematical result of an operation on two unsigned values, before any reduction (42_alu.md R101, R103 to
R111; the shifts are those of 00_scope.md R4, `a * 2^n` and `a div 2^n`, with the whole count). DIV by zero faults
(R106). -/
def aluExact : AluOp → Nat → Nat → Except Fault Int
  | .add, x, y => .ok ((x : Int) + (y : Int))
  | .sub, x, y => .ok ((x : Int) - (y : Int))
  | .mul, x, y => .ok ((x : Int) * (y : Int))
  | .div, x, y => if y = 0 then .error .divideByZero else .ok ((x / y : Nat) : Int)
  | .and, x, y => .ok ((x &&& y : Nat) : Int)
  | .or, x, y => .ok ((x ||| y : Nat) : Int)
  | .xor, x, y => .ok ((x ^^^ y : Nat) : Int)
  | .shl, x, y => .ok ((x <<< y : Nat) : Int)
  | .shr, x, y => .ok ((x >>> y : Nat) : Int)

/-- The overflow policy, in its one place: the unique byte congruent to the exact result modulo 256
(42_alu.md R101, 10_state.md R16). -/
def wrapByte (r : Int) : Byte := BitVec.ofInt 8 r

/-- `ALU(op, va, vb)` (42_alu.md R101). -/
def alu (op : AluOp) (va vb : Byte) : Except Fault Byte :=
  match aluExact op va.toNat vb.toNat with
  | .ok r => .ok (wrapByte r)
  | .error f => .error f

/-- The common form of an ALU instruction's step 4 (42_alu.md R102): operand1's register is read, then operand2's, then
the ALU is called, then the one write is made, to operand1's register (the order of the checks: D9, log 8). -/
def State.aluInto (op : AluOp) (a b : Byte) (s : State) : Except Fault State := do
  let va ← s.readOperand a
  let vb ← s.readOperand b
  let r ← alu op va vb
  s.writeOperand a r

/-! ### The ALU's contract by operation name, and the suggested selector encoding -/

/-- The nine operations, each with its name and its 4-bit selector, the low four bits of its opcode byte
(42_alu.md R100, R113; the selector is a suggestion that no rule reads, log 19). -/
def aluTable : List (AluOp × String × BitVec 4) :=
  [ (.add, "ADD", 0), (.sub, "SUB", 1), (.mul, "MUL", 2), (.div, "DIV", 3), (.and, "AND", 8), (.or, "OR", 10),
    (.xor, "XOR", 11), (.shl, "SHL", 12), (.shr, "SHR", 13) ]

/-- The operation of a name, where the ALU supports it (42_alu.md R100). -/
def AluOp.ofName? (name : String) : Option AluOp :=
  (aluTable.find? (fun row => row.2.1 == name)).map (fun row => row.1)

/-- The operation of a selector, where the ALU supports it (42_alu.md R113). -/
def AluOp.ofSelector? (sel : BitVec 4) : Option AluOp :=
  (aluTable.find? (fun row => row.2.2 == sel)).map (fun row => row.1)

/-- `apply(operation, value_a, value_b)`: the ALU called by an operation name, which fails with UnsupportedOperation for any
name outside its supported set (42_alu.md R112, 60_exceptions.md R123). No instruction calls it so: each calls `alu` with
its own operation. -/
def aluApply (name : String) (va vb : Byte) : Except Fault Byte :=
  match AluOp.ofName? name with
  | some op => alu op va vb
  | none => .error (.unsupportedOperation name)

end Sys2Proof.Machine
end

