-- ==== Sys2Proof/Machine/AluInstr.lean ====
section
/-! DEFINITION. The meanings of the nine ALU instructions, each one line over the common form of 42_alu.md R102. -/

namespace Sys2Proof.Machine

/-- An ALU instruction with the operation `op`: the common form, then `pc <- A + 3` (42_alu.md R102). -/
def execAlu (op : AluOp) (a b : Byte) (s : State) : StepOutcome := complete 2 (s.aluInto op a b)

/-- ADD Ra,Rb: `x[a] <- (x[a] + x[b]) mod 256` (42_alu.md R103). The form by D6, log 5. -/
def execAdd (a b : Byte) (s : State) : StepOutcome := execAlu .add a b s

/-- SUB Ra,Rb: `x[a] <- (x[a] - x[b]) mod 256` (42_alu.md R104). D6, log 5. -/
def execSub (a b : Byte) (s : State) : StepOutcome := execAlu .sub a b s

/-- MUL Ra,Rb: `x[a] <- (x[a] * x[b]) mod 256` (42_alu.md R105). -/
def execMul (a b : Byte) (s : State) : StepOutcome := execAlu .mul a b s

/-- DIV Ra,Rb: `x[a] <- x[a] div x[b]`, and DivideByZero when `x[b] = 0` (42_alu.md R106). D7, log 6. -/
def execDiv (a b : Byte) (s : State) : StepOutcome := execAlu .div a b s

/-- AND Ra,Rb: `x[a] <- x[a] & x[b]` (42_alu.md R107). D6, log 5. -/
def execAnd (a b : Byte) (s : State) : StepOutcome := execAlu .and a b s

/-- OR Ra,Rb: `x[a] <- x[a] | x[b]` (42_alu.md R108). D6, log 5. -/
def execOr (a b : Byte) (s : State) : StepOutcome := execAlu .or a b s

/-- XOR Ra,Rb: `x[a] <- x[a] ^ x[b]` (42_alu.md R109). D6, log 5. -/
def execXor (a b : Byte) (s : State) : StepOutcome := execAlu .xor a b s

/-- SHL Ra,Rb: `x[a] <- (x[a] << x[b]) mod 256` (42_alu.md R110). The whole byte is the count: D8, log 7. -/
def execShl (a b : Byte) (s : State) : StepOutcome := execAlu .shl a b s

/-- SHR Ra,Rb: `x[a] <- x[a] >> x[b]` (42_alu.md R111). Logical, the whole byte is the count: D8, log 7. -/
def execShr (a b : Byte) (s : State) : StepOutcome := execAlu .shr a b s

end Sys2Proof.Machine
end

