-- ==== Sys2Proof/Machine/ControlData.lean ====
section
/-! DEFINITION. The meanings of HLT, LDI and PRN (41_control_and_data.md). -/

namespace Sys2Proof.Machine

/-- HLT: `ENG <- HALTED; pc <- A + 1` (41_control_and_data.md R90). That `pc` advances is 40_fetch_decode_dispatch.md R77
(D5, 90_conflicts.md C1; log 4). -/
def execHlt (s : State) : StepOutcome := complete 0 (.ok (s.setEngine .halted))

/-- LDI: `RegWrite(a, b); pc <- A + 3` (41_control_and_data.md R91). -/
def execLdi (a b : Byte) (s : State) : StepOutcome := complete 2 (s.writeOperand a (immediate b))

/-- PRN: `v <- RegRead(a); OUT <- OUT ++ [v]; pc <- A + 2` (41_control_and_data.md R92). -/
def execPrn (a : Byte) (s : State) : StepOutcome := complete 1 ((s.readOperand a).map s.emit)

end Sys2Proof.Machine
end

