-- ==== Sys2Proof/Syntax.lean ====
section
/-! DEFINITION. The instructions: one constructor per row of spec/opcode_table.json, with its operand bytes as they
stand in the encoding, operand1 first (30_encoding.md R50, R51, R55). -/

namespace Sys2Proof

/-- The twelve mnemonics (30_encoding.md R55). -/
inductive Mnemonic where
  | HLT | LDI | PRN | ADD | SUB | MUL | DIV | AND | OR | XOR | SHL | SHR
  deriving DecidableEq, Repr

/-- An instruction. A register operand is kept as the whole byte it is in the encoding: the value 8..255 is no illegal
encoding, it faults when the register is accessed (30_encoding.md R56, R57; log 21). -/
inductive Instr where
  /-- `HLT` (41_control_and_data.md R90). -/
  | hlt
  /-- `LDI Ra,imm` (R91): `a` the register index, `b` the immediate. -/
  | ldi (a b : Byte)
  /-- `PRN Ra` (R92). -/
  | prn (a : Byte)
  /-- `ADD Ra,Rb` (42_alu.md R103). -/
  | add (a b : Byte)
  /-- `SUB Ra,Rb` (R104). -/
  | sub (a b : Byte)
  /-- `MUL Ra,Rb` (R105). -/
  | mul (a b : Byte)
  /-- `DIV Ra,Rb` (R106). -/
  | div (a b : Byte)
  /-- `AND Ra,Rb` (R107). -/
  | and (a b : Byte)
  /-- `OR Ra,Rb` (R108). -/
  | or (a b : Byte)
  /-- `XOR Ra,Rb` (R109). -/
  | xor (a b : Byte)
  /-- `SHL Ra,Rb` (R110). -/
  | shl (a b : Byte)
  /-- `SHR Ra,Rb` (R111). -/
  | shr (a b : Byte)
  deriving DecidableEq, Repr

end Sys2Proof
end

