-- ==== Sys2Proof/Decode.lean ====
section
/-! DEFINITION. The opcode table, the decoder (total on any bytes, rejecting by name) and the encoder
(30_encoding.md). -/

namespace Sys2Proof

/-! ### The opcode bytes

`OPC_<mnemonic>` of 00_scope.md R3, with the values of 30_encoding.md R55. PRESUMED by the spec itself (its decision D1:
the source gives no numeric value), log 2; unsafe for claims about concrete byte images. -/

def opcHLT : Byte := 0b00000001
def opcLDI : Byte := 0b10000010
def opcPRN : Byte := 0b01000111
def opcADD : Byte := 0b10100000
def opcSUB : Byte := 0b10100001
def opcMUL : Byte := 0b10100010
def opcDIV : Byte := 0b10100011
def opcAND : Byte := 0b10101000
def opcOR  : Byte := 0b10101010
def opcXOR : Byte := 0b10101011
def opcSHL : Byte := 0b10101100
def opcSHR : Byte := 0b10101101

/-! ### The table -/

/-- The three instruction formats (30_encoding.md R51), each with the instruction its operand bytes make: the
"(arity, handler)" of 40_fetch_decode_dispatch.md R82. -/
inductive Form where
  /-- `F0`: no operand byte. -/
  | f0 (i : Instr)
  /-- `F1`: operand1. -/
  | f1 (mk : Byte → Instr)
  /-- `F2`: operand1, operand2. -/
  | f2 (mk : Byte → Byte → Instr)

/-- The number of operand bytes of a format (30_encoding.md R51). -/
def Form.arity : Form → Nat
  | .f0 _ => 0
  | .f1 _ => 1
  | .f2 _ => 2

/-- One row of the opcode table (30_encoding.md R55). -/
structure OpcodeRow where
  mnemonic : Mnemonic
  opcode : Byte
  form : Form

/-- The opcode table: a constant of the machine (30_encoding.md R55, 10_state.md R27). -/
def opcodeTable : List OpcodeRow :=
  [ ⟨.HLT, opcHLT, .f0 .hlt⟩,
    ⟨.LDI, opcLDI, .f2 .ldi⟩,
    ⟨.PRN, opcPRN, .f1 .prn⟩,
    ⟨.ADD, opcADD, .f2 .add⟩,
    ⟨.SUB, opcSUB, .f2 .sub⟩,
    ⟨.MUL, opcMUL, .f2 .mul⟩,
    ⟨.DIV, opcDIV, .f2 .div⟩,
    ⟨.AND, opcAND, .f2 .and⟩,
    ⟨.OR,  opcOR,  .f2 .or⟩,
    ⟨.XOR, opcXOR, .f2 .xor⟩,
    ⟨.SHL, opcSHL, .f2 .shl⟩,
    ⟨.SHR, opcSHR, .f2 .shr⟩ ]

/-- Decode of the opcode byte: a lookup of the whole byte in the table, no don't-care bits (30_encoding.md R54). -/
def lookupOpcode (op : Byte) : Option OpcodeRow :=
  opcodeTable.find? (fun row => row.opcode == op)

/-! ### The decoder -/

/-- Why a list of bytes does not begin with an instruction. -/
inductive DecodeError where
  /-- There is no byte at all. -/
  | noOpcode
  /-- The first byte is none of the twelve opcodes (30_encoding.md R57). -/
  | illegalOpcode (byte : Byte)
  /-- The opcode's operand number `k` (1 or 2) is not there. -/
  | missingOperand (k : Nat)
  deriving DecidableEq, Repr

/-- Reads one instruction from the front of a list of bytes and answers it with the bytes after it (30_encoding.md R50,
R51, R54, R59). An illegal byte has no length: no operand is read for it. -/
def decode : List Byte → Except DecodeError (Instr × List Byte)
  | [] => .error .noOpcode
  | op :: rest =>
    match lookupOpcode op with
    | none => .error (.illegalOpcode op)
    | some row =>
      match row.form, rest with
      | .f0 i, rest => .ok (i, rest)
      | .f1 mk, a :: rest => .ok (mk a, rest)
      | .f1 _, [] => .error (.missingOperand 1)
      | .f2 mk, a :: b :: rest => .ok (mk a b, rest)
      | .f2 _, [_] => .error (.missingOperand 2)
      | .f2 _, [] => .error (.missingOperand 1)

/-- At most `n` instructions read one after another, with the bytes at which the reading stopped. -/
def decodeUpTo : Nat → List Byte → List Instr × List Byte
  | 0, bytes => ([], bytes)
  | n + 1, bytes =>
    match decode bytes with
    | .error _ => ([], bytes)
    | .ok (i, rest) =>
      let (is, left) := decodeUpTo n rest
      (i :: is, left)

/-- The decoder working through an image sequentially from its first byte, stopping at the first byte that begins no
instruction (30_encoding.md R59). -/
def decodeImage (bytes : List Byte) : List Instr × List Byte :=
  decodeUpTo bytes.length bytes

/-! ### The encoder -/

/-- The opcode byte of an instruction (30_encoding.md R55). -/
def Instr.opcode : Instr → Byte
  | .hlt => opcHLT
  | .ldi _ _ => opcLDI
  | .prn _ => opcPRN
  | .add _ _ => opcADD
  | .sub _ _ => opcSUB
  | .mul _ _ => opcMUL
  | .div _ _ => opcDIV
  | .and _ _ => opcAND
  | .or _ _ => opcOR
  | .xor _ _ => opcXOR
  | .shl _ _ => opcSHL
  | .shr _ _ => opcSHR

/-- The operand bytes of an instruction, in ascending address order (30_encoding.md R51, 20_memory.md R38). -/
def Instr.operands : Instr → List Byte
  | .hlt => []
  | .ldi a b => [a, b]
  | .prn a => [a]
  | .add a b => [a, b]
  | .sub a b => [a, b]
  | .mul a b => [a, b]
  | .div a b => [a, b]
  | .and a b => [a, b]
  | .or a b => [a, b]
  | .xor a b => [a, b]
  | .shl a b => [a, b]
  | .shr a b => [a, b]

/-- The operand count (30_encoding.md R50, R52). -/
def Instr.arity (i : Instr) : Nat := i.operands.length

/-- The bytes of an instruction in ascending address order (30_encoding.md R51, R61). -/
def encode (i : Instr) : List Byte := i.opcode :: i.operands

/-! ### The written notation -/

/-- The mnemonic of an instruction (30_encoding.md R55). -/
def Instr.mnemonic : Instr → Mnemonic
  | .hlt => .HLT
  | .ldi _ _ => .LDI
  | .prn _ => .PRN
  | .add _ _ => .ADD
  | .sub _ _ => .SUB
  | .mul _ _ => .MUL
  | .div _ _ => .DIV
  | .and _ _ => .AND
  | .or _ _ => .OR
  | .xor _ _ => .XOR
  | .shl _ _ => .SHL
  | .shr _ _ => .SHR

/-- A mnemonic as it is written. -/
def Mnemonic.name : Mnemonic → String
  | .HLT => "HLT"
  | .LDI => "LDI"
  | .PRN => "PRN"
  | .ADD => "ADD"
  | .SUB => "SUB"
  | .MUL => "MUL"
  | .DIV => "DIV"
  | .AND => "AND"
  | .OR => "OR"
  | .XOR => "XOR"
  | .SHL => "SHL"
  | .SHR => "SHR"

/-- The statement of an instruction in the document's notation (30_encoding.md R61): the destination first, `R` and the
decimal index for a register, decimal for an immediate. -/
def Instr.statement (i : Instr) : String :=
  let reg (r : Byte) : String := "R" ++ toString r.toNat
  match i, i.operands with
  | .ldi a b, _ => i.mnemonic.name ++ " " ++ reg a ++ "," ++ toString b.toNat
  | _, [a, b] => i.mnemonic.name ++ " " ++ reg a ++ "," ++ reg b
  | _, [a] => i.mnemonic.name ++ " " ++ reg a
  | _, _ => i.mnemonic.name

/-! ### Words numbered as spec/opcode_table.json numbers them -/

/-- The three bytes at the lowest addresses of an instruction whose first `nbits` bits are `w` (bit 0 the least significant
bit of the first byte) and whose later bits are 0: the longest instruction has three bytes (30_encoding.md R50). -/
def tableBytes (nbits w : Nat) : List Byte :=
  let bits := w % 2 ^ nbits
  [BitVec.ofNat 8 bits, BitVec.ofNat 8 (bits / 256), BitVec.ofNat 8 (bits / 65536)]

/-- The instruction the decoder reads from such a word. -/
def decodeTableWord (nbits w : Nat) : Option Instr :=
  match decode (tableBytes nbits w) with
  | .ok (i, _) => some i
  | .error _ => none

end Sys2Proof
end

