-- ==== Sys2Proof/Machine/Fetch.lean ====
section
/-! DEFINITION. The fetch-decode unit: steps 1 to 3 of the cycle (40_fetch_decode_dispatch.md R71, R72, R73), the bytes
that stand at the program counter, and placing an instruction there. -/

namespace Sys2Proof.Machine

/-- Steps 1 to 3: the opcode is fetched by a checked read at `pc`, looked up in the table, and exactly as many operand bytes
are read as its format has, operand1 first (40_fetch_decode_dispatch.md R71, R72, R73). -/
def State.fetchInstr (s : State) : Except Fault Instr := do
  let at_ := s.pc.toNat
  let op ← s.memRead at_
  match lookupOpcode op with
  | none => .error (.invalidOpcode op at_)
  | some row =>
    match row.form with
    | .f0 i => .ok i
    | .f1 make => do
      let a ← s.memRead (at_ + 1)
      .ok (make a)
    | .f2 make => do
      let a ← s.memRead (at_ + 1)
      let b ← s.memRead (at_ + 2)
      .ok (make a b)

/-- The next up to three raw bytes at the program counter, leaving out every address that does not exist
(60_exceptions.md R135). -/
def State.codeBytes (s : State) : List Byte :=
  (([0, 1, 2].map (fun k => s.pc.toNat + k)).filter (fun a => decide (a < Config.memSize))).map s.mem.read

/-- The state in which an instruction's three bytes (its own, then zeros) stand at the program counter and the engine is
RUNNING, which a cycle needs (40_fetch_decode_dispatch.md R70). Bytes that would lie above address 255 are left out
(log 16). -/
def State.placeCode (s : State) (nbits w : Nat) : State :=
  { s with mem := s.mem.writeBytes s.pc.toNat (tableBytes nbits w), eng := .running }

end Sys2Proof.Machine
end

