-- ==== Sys2Proof/Machine/Cycle.lean ====
section
/-! DEFINITION. The cycle (40_fetch_decode_dispatch.md, section 2, assembled). -/

namespace Sys2Proof.Machine

/-- One cycle: in HALTED a no-op (40_fetch_decode_dispatch.md R70; the state is answered unchanged, log 24), in RUNNING
fetch, decode, operand fetch, then the instruction's own steps 4 and 5. -/
def cycle (s : State) : StepOutcome :=
  match s.eng with
  | .halted => .next s
  | .running =>
    match s.fetchInstr with
    | .error f => takeFault f
    | .ok i => exec i s

end Sys2Proof.Machine
end

