-- ==== Sys2Proof/Machine/Step.lean ====
section
/-! DEFINITION. One step of the machine, and placing an instruction where the next step fetches it. -/

namespace Sys2Proof.Machine

/-- One step: one cycle of the Execution Engine (00_scope.md R2, 40_fetch_decode_dispatch.md R70 to R75). -/
def step (s : State) : Host.Outcome State Fault Refusal := cycle s

/-- The state whose very next step runs the instruction the word stands for (log 16). -/
def State.withFetchWord (s : State) (nbits w : Nat) : State := s.placeCode nbits w

end Sys2Proof.Machine
end

