-- ==== Sys2Proof/Machine/Run.lean ====
section
/-! DEFINITION. The run loop and its budget (40_fetch_decode_dispatch.md R76, R81; 70_reset_and_hazards.md R158). -/

namespace Sys2Proof.Machine

/-- The results of one invocation of the run loop (70_reset_and_hazards.md R158). -/
inductive RunResult where
  | alreadyHalted
  | halted
  | faulted (f : Fault)
  | suspended
  /-- Not of the spec: what the loop would answer if a step were refused. No step is refused (log 20). -/
  | refused (r : Refusal)
  deriving DecidableEq, Repr

/-- At most `n` cycles: the loop ends on a HLT, on a fault (with the state before the faulting cycle), or when the budget
is used up (40_fetch_decode_dispatch.md R76, R81). -/
def runLoop : Nat → State → RunResult × State
  | 0, s => (.suspended, s)
  | n + 1, s =>
    match step s with
    | .fault f => (.faulted f, s)
    | .refused r => (.refused r, s)
    | .next t =>
      match t.eng with
      | .halted => (.halted, t)
      | .running => runLoop n t

/-- The budget that is the same as none: every run ends within 257 cycles (40_fetch_decode_dispatch.md R80, R81; log 10). -/
def enoughCycles : Nat := 257

/-- `run(N)`, with `none` for "no budget" (70_reset_and_hazards.md R158). In HALTED it does nothing, whatever the budget
(40_fetch_decode_dispatch.md R70). -/
def run (budget : Option Nat) (s : State) : RunResult × State :=
  match s.eng with
  | .halted => (.alreadyHalted, s)
  | .running => runLoop (budget.getD enoughCycles) s

end Sys2Proof.Machine
end

