-- ==== Sys2Proof/Machine/HostOps.lean ====
section
/-! DEFINITION. What the host can do to the machine between cycles (70_reset_and_hazards.md R150 to R158, 60_exceptions.md
R135). -/

namespace Sys2Proof.Machine

/-- Engine reset: `pc <- 0; ENG <- RUNNING`, nothing else (70_reset_and_hazards.md R151; in RUNNING too: D12, log 11). -/
def State.engineReset (s : State) : State := { s with pc := 0, eng := .running }

/-- `load_program(bytes)`: the bytes in order from address 0, or ProgramTooLarge with nothing written
(70_reset_and_hazards.md R152, R153, R154; log 12). -/
def State.loadProgram (s : State) (bytes : List Byte) : Except Fault State :=
  if bytes.length ≤ Config.memSize then .ok { s with mem := s.mem.writeBytes 0 bytes }
  else .error (.programTooLarge bytes.length Config.memSize)

/-- The trace snapshot: the program counter, the next up to three raw memory bytes, all eight registers
(60_exceptions.md R135; log 15). -/
structure Snapshot where
  pc : PcWord
  bytes : List Byte
  regs : Vector Byte Config.numRegs
  deriving DecidableEq, Repr

/-- The snapshot of a state (60_exceptions.md R135). -/
def State.snapshot (s : State) : Snapshot := { pc := s.pc, bytes := s.codeBytes, regs := s.regs }

/-- The host's operations (70_reset_and_hazards.md R150, R151, R156). -/
inductive HostOp where
  /-- Power-on: every piece of state at its reset value (R150). -/
  | powerOn
  | engineReset
  | run (budget : Option Nat)
  | readMemory (address : Nat)
  | writeMemory (address : Nat) (value : Byte)
  | readRegister (index : Nat)
  | writeRegister (index : Nat) (value : Byte)
  | loadProgram (bytes : List Byte)
  | snapshot
  deriving DecidableEq, Repr

/-- What an operation answers to the host. -/
inductive HostReply where
  | done
  | value (v : Byte)
  | fault (f : Fault)
  | ran (r : RunResult)
  | trace (t : Snapshot)
  deriving DecidableEq, Repr

/-- An operation that reads: its value or its fault, and the state unchanged (70_reset_and_hazards.md R156). -/
def replyRead (s : State) : Except Fault Byte → HostReply × State
  | .ok v => (.value v, s)
  | .error f => (.fault f, s)

/-- An operation that writes: a fault leaves the state unchanged (70_reset_and_hazards.md R156). -/
def replyWrite (s : State) : Except Fault State → HostReply × State
  | .ok t => (.done, t)
  | .error f => (.fault f, s)

/-- One host operation: its reply and the state after it (70_reset_and_hazards.md R156, R157). It happens between cycles and
in either engine state (log 12). -/
def hostStep (op : HostOp) (s : State) : HostReply × State :=
  match op with
  | .powerOn => (.done, State.reset)
  | .engineReset => (.done, s.engineReset)
  | .run budget => let (r, t) := run budget s; (.ran r, t)
  | .readMemory a => replyRead s (s.memRead a)
  | .writeMemory a v => replyWrite s (s.memWrite a v)
  | .readRegister i => replyRead s (s.readReg i)
  | .writeRegister i v => replyWrite s (s.writeReg i v)
  | .loadProgram bytes => replyWrite s (s.loadProgram bytes)
  | .snapshot => (.trace s.snapshot, s)

/-! ### Numbers for a status port -/

/-- The numeric code of a fault (60_exceptions.md R120; the spec's own numbering, which no rule reads: D17, log 23). -/
def Fault.code : Fault → Nat
  | .outOfBounds _ _ => 1
  | .invalidOpcode _ _ => 2
  | .unsupportedOperation _ => 3
  | .programTooLarge _ _ => 4
  | .loadFailed _ => 5
  | .divideByZero => 6

/-- The suggested one-bit encoding of `ENG` (10_state.md R22; no rule reads it, log 23). -/
def EngineState.bit : EngineState → BitVec 1
  | .running => 0
  | .halted => 1

end Sys2Proof.Machine
end

