-- ==== Sys2Proof/Machine/Output.lean ====
section
/-! DEFINITION. The text the output sink receives (41_control_and_data.md R93): a function of the values PRN emitted. -/

namespace Sys2Proof.Machine

/-- The decimal numeral of an emitted value: no sign, no padding, no leading zeros (41_control_and_data.md R93). -/
def decimal (v : Byte) : List Char := Nat.toDigits 10 v.toNat

/-- `text(OUT)`: over the elements in order, the numeral and the line terminator (41_control_and_data.md R93). Which
characters terminate a line the source does not say: it is the argument `lineTerm` (log 14). -/
def outText (lineTerm : List Char) (out : List Byte) : List Char := out.flatMap (fun v => decimal v ++ lineTerm)

end Sys2Proof.Machine
end

