-- ==== Sys2Proof/WellFormed.lean ====
section
/-! DEFINITION. Well-formedness of an instruction: every register operand names a register. An ill-formed instruction is
still a legal encoding, which the machine runs into a fault (30_encoding.md R56, R57; log 21). -/

namespace Sys2Proof

/-- The register-index operands of an instruction, in the order in which the machine checks them (30_encoding.md R55
columns "operands", 42_alu.md R102). LDI's operand2 is an immediate and is not among them. -/
def Instr.regOperands : Instr → List Byte
  | .hlt => []
  | .ldi a _ => [a]
  | .prn a => [a]
  | .add a b => [a, b]
  | .sub a b => [a, b]
  | .mul a b => [a, b]
  | .div a b => [a, b]
  | .and a b => [a, b]
  | .or a b => [a, b]
  | .xor a b => [a, b]
  | .shl a b => [a, b]
  | .shr a b => [a, b]

/-- A register-index byte names a register exactly when it is 0..7 (30_encoding.md R56). -/
def regIndexOk (r : Byte) : Bool := decide (r.toNat < Config.numRegs)

/-- Every register operand names a register. -/
def Instr.wf (i : Instr) : Bool := i.regOperands.all regIndexOk

end Sys2Proof
end

