-- ==== Sys2Proof/Safety.lean ====
section
/-! DEFINITION. The terms in which claims about the machine are stated: its invariant, what stands at the program counter,
the registers an instruction reads and writes, what a register write changes, and what counts as a safe end of a run. -/

namespace Sys2Proof.Safety

open Sys2Proof.Machine

/-- The invariant of every reachable state: memory is in canonical form, `pc` is in 0..256 (10_state.md R18), and in HALTED
`pc` is the address after a byte, 1..256 (40_fetch_decode_dispatch.md R77). -/
structure StateInv (s : State) : Prop where
  mem_wf : s.mem.wf
  pc_le : s.pc.toNat ≤ 256
  halted_pc : s.eng = .halted → 1 ≤ s.pc.toNat

/-- The bytes of the instruction `i` stand at the program counter, all of them inside memory. -/
def CodeAt (s : State) (i : Instr) : Prop :=
  ∀ k v, (encode i)[k]? = some v → s.memRead (s.pc.toNat + k) = .ok v

/-- The opcode byte of `i` stands at the program counter, and its operands would run past the end of memory
(40_fetch_decode_dispatch.md R73). -/
def RunsOffTheEnd (s : State) (i : Instr) : Prop :=
  s.pc.toNat < 256 ∧ s.mem.read s.pc.toNat = i.opcode ∧ 256 ≤ s.pc.toNat + i.arity

/-- The illegal opcode bytes, as 30_encoding.md R57 lists them: 0x00, 0x02..0x46, 0x48..0x81, 0x83..0x9F, 0xA4..0xA7,
0xA9, 0xAE..0xFF. -/
def illegalOpcode (op : Byte) : Bool :=
  let n := op.toNat
  n == 0x00 || (0x02 ≤ n && n ≤ 0x46) || (0x48 ≤ n && n ≤ 0x81) || (0x83 ≤ n && n ≤ 0x9F) || (0xA4 ≤ n && n ≤ 0xA7)
    || n == 0xA9 || 0xAE ≤ n

/-- The registers an instruction reads (10_state.md R15). -/
def regsRead : Instr → List Byte
  | .hlt => []
  | .ldi _ _ => []
  | .prn a => [a]
  | .add a b => [a, b]
  | .sub a b => [a, b]
  | .mul a b => [a, b]
  | .div a b => [a, b]
  | .and a b => [a, b]
  | .or a b => [a, b]
  | .xor a b => [a, b]
  | .shl a b => [a, b]
  | .shr a b => [a, b]

/-- The register an instruction writes (10_state.md R15). -/
def regWritten : Instr → Option Byte
  | .hlt => none
  | .ldi a _ => some a
  | .prn _ => none
  | .add a _ => some a
  | .sub a _ => some a
  | .mul a _ => some a
  | .div a _ => some a
  | .and a _ => some a
  | .or a _ => some a
  | .xor a _ => some a
  | .shl a _ => some a
  | .shr a _ => some a

/-- The instruction of an ALU operation (30_encoding.md R55). -/
def aluInstr : AluOp → Byte → Byte → Instr
  | .add => .add
  | .sub => .sub
  | .mul => .mul
  | .div => .div
  | .and => .and
  | .or => .or
  | .xor => .xor
  | .shl => .shl
  | .shr => .shr

/-- `t` is `s` with the register `d` holding `v` and the program counter `n` bytes further: no other register, no byte of
memory, not `ENG` and not `OUT` has changed. -/
structure WritesReg (s t : State) (d : Nat) (v : Byte) (n : Nat) : Prop where
  regs : ∀ j, t.readReg j = if j = d then .ok v else s.readReg j
  mem : ∀ a, t.mem.read a = s.mem.read a
  eng : t.eng = s.eng
  out : t.out = s.out
  pc : t.pc = s.pc + BitVec.ofNat 9 n

/-- `t` is `s` but for the program counter, `ENG` and `OUT`: no register and no byte of memory has changed. -/
structure KeepsRegsAndMem (s t : State) : Prop where
  regs : ∀ j, t.readReg j = s.readReg j
  mem : ∀ a, t.mem.read a = s.mem.read a

/-- A divisor register that holds 0 is what makes a well-formed instruction fault (42_alu.md R106). -/
def divisorZero (s : State) : Instr → Bool
  | .div _ b => s.readReg b.toNat == .ok 0
  | _ => false

/-- A run ended safely: it reached no fault (70_reset_and_hazards.md R158). -/
def safeEnd : RunResult → Bool
  | .alreadyHalted => true
  | .halted => true
  | .suspended => true
  | .faulted _ => false
  | .refused _ => false

/-- The next state of an outcome, where it is one. -/
def nextState? : StepOutcome → Option State
  | .next s => some s
  | .fault _ => none
  | .refused _ => none

/-- The fault of an outcome, where it is one. -/
def fault? : StepOutcome → Option Fault
  | .fault f => some f
  | .next _ => none
  | .refused _ => none

end Sys2Proof.Safety
end

