-- ==== Sys2Proof/Certificates/Slice0/Obligations.lean ====
section
/-! DEFINITION. The statements about the model, for the provers. Each docstring says which rule of spec/ it formalises, or
whose choice it rests on. -/

open Sys2Proof Sys2Proof.Machine Sys2Proof.Safety

/-! ### Reset -/

/-- 70_reset_and_hazards.md section 1: what power-on leaves. That the registers hold 0 is the spec's own decision D3 (the model's
log entry 1), not a rule of its source. -/
def Obligations.PowerOnState : Prop :=
  (∀ a, a < 256 → State.reset.memRead a = .ok 0) ∧ (∀ i, i < 8 → State.reset.readReg i = .ok 0) ∧
    State.reset.pc = 0 ∧ State.reset.eng = .running ∧ State.reset.out = [] ∧
    ∀ s, hostStep .powerOn s = (.done, State.reset)

/-- 70_reset_and_hazards.md section 2: engine reset, from either engine state (allowing it in RUNNING is the spec's decision
D12, log entry 11): `pc` is 0, `ENG` is RUNNING, memory, registers and `OUT` keep their values, and the image in memory
can be run again from address 0. -/
def Obligations.EngineResetKeepsMemoryRegistersAndOutput : Prop :=
  ∀ s, ∃ t, hostStep .engineReset s = (.done, t) ∧ t.pc = 0 ∧ t.eng = .running ∧
    (∀ a, t.mem.read a = s.mem.read a) ∧ (∀ j, t.readReg j = s.readReg j) ∧ t.out = s.out ∧
    ∀ i, CodeAt t i → step t = exec i t

/-! ### Encoding -/

/-- 30_encoding.md section 6, the table of statements and bytes. The opcode values are the spec's decision D1 (log entry 2). -/
def Obligations.InstructionsEncodeAsTabled : Prop :=
  ∀ a b : Byte,
    encode .hlt = [0x01] ∧ encode (.ldi a b) = [0x82, a, b] ∧ encode (.prn a) = [0x47, a] ∧
    encode (.add a b) = [0xA0, a, b] ∧ encode (.sub a b) = [0xA1, a, b] ∧ encode (.mul a b) = [0xA2, a, b] ∧
    encode (.div a b) = [0xA3, a, b] ∧ encode (.and a b) = [0xA8, a, b] ∧ encode (.or a b) = [0xAA, a, b] ∧
    encode (.xor a b) = [0xAB, a, b] ∧ encode (.shl a b) = [0xAC, a, b] ∧ encode (.shr a b) = [0xAD, a, b]

/-- A few words written out from the spec's encodings (30_encoding.md section 3, 95_test_vectors.md) decode to the instructions
they stand for, one of each family and format. The opcode values are the spec's decision D1 (log entry 2). -/
def Obligations.WrittenOutWordsDecode : Prop :=
  decode [0b00000001] = .ok (.hlt, []) ∧
  decode [0b10000010, 0b00000000, 0b00000101] = .ok (.ldi 0 5, []) ∧
  decode [0b01000111, 0b00000011, 0b00000001] = .ok (.prn 3, [0b00000001]) ∧
  decode [0b10100010, 0b00000000, 0b00000001] = .ok (.mul 0 1, []) ∧
  decode [0b10101101, 0b00001001, 0b00001010] = .ok (.shr 9 10, []) ∧
  decode [0b00000000] = .error (.illegalOpcode 0b00000000) ∧
  decode [0b10000010, 0b00000000] = .error (.missingOperand 2)

/-- Decode and encode agree: a byte sequence decodes to the instruction `i` with `rest` left over exactly when it is the encoding
of `i` followed by `rest`, whatever the operand bytes. So decoding an encoded instruction gives it back, no bit of an encoding is
dropped, and each byte sequence has one meaning (30_encoding.md sections 1 to 4). -/
def Obligations.DecodeAndEncodeAgree : Prop :=
  ∀ (bytes rest : List Byte) (i : Instr), decode bytes = .ok (i, rest) ↔ bytes = encode i ++ rest

/-- A decoder working sequentially through the image of any instructions, followed by an illegal byte or by nothing, reads
exactly those instructions and stops there (30_encoding.md sections 4 and 5). Which bytes are illegal is the list of section 5,
which rests on the spec's decisions D1 and D23 (log entries 2 and 22). -/
def Obligations.ImageDecodesToItsInstructions : Prop :=
  ∀ (is : List Instr) (rest : List Byte), (∀ b, rest.head? = some b → illegalOpcode b = true) →
    decodeImage (is.flatMap encode ++ rest) = (is, rest)

/-- 30_encoding.md R52: the arity of every table entry is `op[7:6]`, no entry has `op[7:6] = 11`, and a byte that is not in the table
has no arity: whatever its high bits, no operand is fetched for it, so it faults with InvalidOpcode at every address. -/
def Obligations.OpcodeHighBitsAreTheArity : Prop :=
  (∀ op row, lookupOpcode op = some row → row.form.arity = (op.extractLsb' 6 2).toNat) ∧
  (∀ op : Byte, op.extractLsb' 6 2 = 0b11 → lookupOpcode op = none) ∧
  ∀ s, s.eng = .running → s.pc.toNat < 256 → lookupOpcode (s.mem.read s.pc.toNat) = none →
    step s = .fault (.invalidOpcode (s.mem.read s.pc.toNat) s.pc.toNat)

/-- 60_exceptions.md section 1, InvalidOpcode: a step raises it exactly when the byte at `pc` is the opcode of no instruction,
with that byte and the unchanged `pc`; and, the document's instance, a single such byte loaded as the program makes every run
from an engine reset fault with `pc` 0 and no register changed. The whole state after the fault is the spec's decision D10 (log
entry 9), the budget its decision D11 (log entry 10), the reset from either engine state its decision D12 (log entry 11). -/
def Obligations.InvalidOpcodeExactlyWhen : Prop :=
  (∀ s byte pc, step s = .fault (.invalidOpcode byte pc) ↔
    s.eng = .running ∧ pc = s.pc.toNat ∧ pc < 256 ∧ byte = s.mem.read pc ∧ ∀ i : Instr, i.opcode ≠ byte) ∧
  ∀ (s t : State) byte n, (∀ i : Instr, i.opcode ≠ byte) → s.loadProgram [byte] = .ok t →
    run (some (n + 1)) t.engineReset = (.faulted (.invalidOpcode byte 0), t.engineReset) ∧ t.engineReset.regs = s.regs

/-- 30_encoding.md section 5: the illegal opcode bytes are the 244 of the listed ranges, and each faults as an opcode; any bytes may
stand as the operands of the other twelve. The opcode values, and that nothing else is an opcode, are the spec's decisions D1
and D23 (log entries 2 and 22). -/
def Obligations.IllegalOpcodesFault : Prop :=
  ((List.range 256).filter (fun n => illegalOpcode (BitVec.ofNat 8 n))).length = 244 ∧
  (∀ s, s.eng = .running → s.pc.toNat < 256 → illegalOpcode (s.mem.read s.pc.toNat) = true →
    step s = .fault (.invalidOpcode (s.mem.read s.pc.toNat) s.pc.toNat)) ∧
  ∀ (op a b : Byte), illegalOpcode op = false → ∃ i rest, decode [op, a, b] = .ok (i, rest)

/-! ### The cycle -/

/-- 40_fetch_decode_dispatch.md section 2: when the bytes at the program counter decode to an instruction, a step is that
instruction's execution, and nothing is added around it (the execution advances `pc` itself). -/
def Obligations.StepRunsTheDecodedInstruction : Prop :=
  (∀ s i rest, s.eng = .running → decode s.codeBytes = .ok (i, rest) → step s = exec i s) ∧
    ∀ s i, s.eng = .running → CodeAt s i → step s = exec i s

/-- 40_fetch_decode_dispatch.md section 1: in HALTED a step is a no-op, and invoking the run loop is one. The budget and the
result AlreadyHalted are the spec's decision D11 (log entry 10). -/
def Obligations.HaltedMachineDoesNothing : Prop :=
  ∀ s, s.eng = .halted → step s = .next s ∧ ∀ budget, run budget s = (.alreadyHalted, s)

/-- 40_fetch_decode_dispatch.md R71: the opcode is the byte at `pc`, read by a checked read; a program counter outside memory
faults and does not wrap around. -/
def Obligations.FetchOutsideMemoryFaults : Prop :=
  ∀ s, s.eng = .running →
    (256 ≤ s.pc.toNat → step s = .fault (.outOfBounds .memory s.pc.toNat)) ∧
    (s.pc.toNat < 256 → s.memRead s.pc.toNat = .ok (s.mem.read s.pc.toNat) ∧
      (lookupOpcode (s.mem.read s.pc.toNat) = none → step s = .fault (.invalidOpcode (s.mem.read s.pc.toNat) s.pc.toNat)) ∧
      ∀ i, CodeAt s i → s.mem.read s.pc.toNat = i.opcode ∧ step s = exec i s)

/-- 40_fetch_decode_dispatch.md R73: exactly `n` operand bytes are read, at `A + 1` and `A + 2`; where they lie in memory the
instruction they make is executed, and the operand fetch faults in exactly two cases, always with index 256. -/
def Obligations.OperandsPastTheEndFault : Prop :=
  ∀ s row, s.eng = .running → s.pc.toNat < 256 → lookupOpcode (s.mem.read s.pc.toNat) = some row →
    (step s = .fault (.outOfBounds .memory 256) ↔
      (1 ≤ row.form.arity ∧ s.pc.toNat = 255) ∨ (row.form.arity = 2 ∧ s.pc.toNat = 254)) ∧
    (s.pc.toNat + row.form.arity < 256 →
      ∃ i, CodeAt s i ∧ i.opcode = s.mem.read s.pc.toNat ∧ i.arity = row.form.arity ∧
        (∀ k v, i.operands[k]? = some v → v = s.mem.read (s.pc.toNat + (k + 1))) ∧ step s = exec i s)

/-- 40_fetch_decode_dispatch.md sections 2 and 3: every cycle that does not fault, HLT's included, moves `pc` past the
instruction by `1 + arity`; the result is at most 256 and is not reduced modulo 256. That HLT's cycle advances `pc` too is the
spec's decision D5 (log entry 4). -/
def Obligations.CompletedCycleAdvancesPc : Prop :=
  ∀ s t, s.eng = .running → step s = .next t →
    ∃ i, CodeAt s i ∧ t.pc.toNat = s.pc.toNat + 1 + i.arity ∧ t.pc.toNat ≤ 256

/-- The invariant holds after power-on (10_state.md sections 2 and 4; that `pc` is at most 256 is the spec's decision D4, log entry
3). -/
def Obligations.InvariantAtPowerOn : Prop := StateInv State.reset

/-- Every step keeps the invariant: memory canonical, `pc` in 0..256, and in HALTED `pc` after a byte (10_state.md section 4,
40_fetch_decode_dispatch.md section 3; the range of `pc` by the spec's decision D4, log entry 3, the last by D5, log entry
4). -/
def Obligations.StepKeepsTheInvariant : Prop :=
  ∀ s t, StateInv s → step s = .next t → StateInv t

/-- Every host operation, from either engine state, keeps the invariant, a whole run among them (70_reset_and_hazards.md sections
1 to 6). That `pc` is at most 256 and that in HALTED it stands after a byte are the spec's decisions D4 and D5 (log entries 3
and 4), the operations in either engine state its decisions D12 and D13 (log entries 11 and 12). -/
def Obligations.HostOperationsKeepTheInvariant : Prop :=
  ∀ op s, StateInv s → StateInv (hostStep op s).2

/-- Every instruction may be executed: no step is refused (60_exceptions.md section 6), and no run answers a refusal. -/
def Obligations.NothingIsRefused : Prop :=
  (∀ s r, step s ≠ .refused r) ∧ ∀ budget s r, (run budget s).1 ≠ .refused r

/-- An instruction completes exactly when every register operand names a register and it divides by no zero
(30_encoding.md section 4; 42_alu.md section 3, DIV, by the spec's decision D7, log entry 6). -/
def Obligations.InstructionCompletesExactlyWhen : Prop :=
  ∀ i s, (∃ t, exec i s = .next t) ↔ (i.wf = true ∧ divisorZero s i = false)

/-! ### Who writes what -/

/-- 20_memory.md section 3: inside a cycle memory is only read, by the fetch alone (an instruction's execution neither reads nor
writes it); it is written only by the host's `load_program` and `write_memory` (and by power-on). The host's operations in
either engine state are the spec's decisions D12 and D13 (log entries 11 and 12). -/
def Obligations.OnlyTheHostWritesMemory : Prop :=
  (∀ s t, step s = .next t → t.mem = s.mem) ∧
  (∀ i s m, exec i { s with mem := m } =
    match exec i s with
    | .next t => .next { t with mem := m }
    | .fault f => .fault f
    | .refused r => .refused r) ∧
  ∀ op s, op ≠ .powerOn → (∀ a v, op ≠ .writeMemory a v) → (∀ bytes, op ≠ .loadProgram bytes) →
    (hostStep op s).2.mem = s.mem

/-- 10_state.md section 6: `OUT` is empty at power-on; a step that runs PRN appends the register's value, and every other step
leaves `OUT` as it was; of the host's operations only power-on empties it, only a run, by its steps, appends to it, and every
other one, engine reset among them, leaves it as it was; and no instruction reads it. The host's operations in either engine
state are the spec's decisions D12 and D13 (log entries 11 and 12). -/
def Obligations.OutputIsAppendOnly : Prop :=
  State.reset.out = [] ∧
  (∀ s t, s.eng = .running → step s = .next t →
    ((∀ a, ¬ CodeAt s (.prn a)) → t.out = s.out) ∧
    ∀ a, CodeAt s (.prn a) → ∃ v, s.readReg a.toNat = .ok v ∧ t.out = s.out ++ [v]) ∧
  (∀ op s, op ≠ .powerOn → (∀ b, op ≠ .run b) → (hostStep op s).2.out = s.out) ∧
  (∀ b s, ∃ vs, (hostStep (.run b) s).2.out = s.out ++ vs) ∧
  ∀ i s earlier, exec i { s with out := earlier ++ s.out } =
    match exec i s with
    | .next t => .next { t with out := earlier ++ t.out }
    | .fault f => .fault f
    | .refused r => .refused r

/-- 10_state.md section 4: only power-on (to 0), engine reset (to 0) and step 5 of a cycle (past the instruction) write `pc`. That
HLT's cycle moves `pc` too is the spec's decision D5 (log entry 4), that engine reset may come in RUNNING its decision D12 (log
entry 11), the other operations in either engine state its decision D13 (log entry 12). -/
def Obligations.OnlyThreeThingsWritePc : Prop :=
  (∀ s, (hostStep .powerOn s).2.pc = 0) ∧ (∀ s, (hostStep .engineReset s).2.pc = 0) ∧
  (∀ s t, s.eng = .running → step s = .next t → ∃ i, CodeAt s i ∧ t.pc.toNat = s.pc.toNat + 1 + i.arity) ∧
  (∀ op s, op ≠ .powerOn → op ≠ .engineReset → (∀ b, op ≠ .run b) → (hostStep op s).2.pc = s.pc) ∧
  ∀ b s, s.pc.toNat ≤ (hostStep (.run b) s).2.pc.toNat

/-- 10_state.md section 5: RUNNING is initial; RUNNING to HALTED only on executing HLT; HALTED to RUNNING only on engine reset (or
power-on), which sets `pc` to 0 and touches no memory and no register; a cycle in HALTED is a no-op; nothing else writes
`ENG`. That engine reset has the same effect in RUNNING is the spec's decision D12 (log entry 11), the other operations in
either engine state its decision D13 (log entry 12). -/
def Obligations.EngineStateTransitions : Prop :=
  State.reset.eng = .running ∧
  (∀ s t, s.eng = .running → step s = .next t → (t.eng = .halted ↔ CodeAt s .hlt)) ∧
  (∀ op s, s.eng = .halted → (hostStep op s).2.eng = .running → op = .engineReset ∨ op = .powerOn) ∧
  (∀ s : State, s.engineReset.eng = .running ∧ s.engineReset.pc = 0 ∧ s.engineReset.mem = s.mem ∧ s.engineReset.regs = s.regs) ∧
  (∀ s, s.eng = .halted → step s = .next s) ∧
  ∀ op s, op ≠ .powerOn → op ≠ .engineReset → (∀ b, op ≠ .run b) → (hostStep op s).2.eng = s.eng

/-- 10_state.md R15: an instruction writes only the register its row names, what it does depends only on the registers its
row names as read (changing any other register changes neither its outcome nor anything but that register), and the host
reads any register, changing nothing, and writes any register, changing no other register, no memory, not `pc`, `ENG` or
`OUT`. -/
def Obligations.InstructionsReadAndWriteTheirRegisters : Prop :=
  (∀ i s t, exec i s = .next t → ∀ j, (∀ d, regWritten i = some d → j ≠ d.toNat) → t.readReg j = s.readReg j) ∧
  (∀ i s s' k v, s.writeReg k v = .ok s' → (∀ r ∈ regsRead i, r.toNat ≠ k) →
    (∀ f, exec i s = .fault f ↔ exec i s' = .fault f) ∧
    ∀ t, exec i s = .next t → ∃ t', exec i s' = .next t' ∧ t'.mem = t.mem ∧ t'.pc = t.pc ∧ t'.eng = t.eng ∧ t'.out = t.out ∧
      ∀ j, (j ≠ k ∨ ∃ d, regWritten i = some d ∧ d.toNat = k) → t'.readReg j = t.readReg j) ∧
  ∀ s j v, j < 8 → (hostStep (.readRegister j) s).2 = s ∧
    ∃ t, (hostStep (.writeRegister j v) s).2 = t ∧ (hostStep (.readRegister j) t).1 = .value v ∧
      (∀ k, k ≠ j → t.readReg k = s.readReg k) ∧ t.mem = s.mem ∧ t.pc = s.pc ∧ t.eng = s.eng ∧ t.out = s.out

/-- The frame of every instruction (10_state.md section 3, 20_memory.md section 3, 40_fetch_decode_dispatch.md sections 2 and 3):
every byte of memory reads as before, every register but the destination holds what it held, `ENG` changes only on HLT, `OUT`
only on PRN, and `pc` moves past the instruction. That HLT moves `pc` too is the spec's decision D5 (log entry 4). -/
def Obligations.InstructionFrame : Prop :=
  ∀ i s t, exec i s = .next t →
    (∀ a, t.mem.read a = s.mem.read a) ∧
    (∀ j, (∀ d, regWritten i = some d → j ≠ d.toNat) → t.readReg j = s.readReg j) ∧
    (i ≠ .hlt → t.eng = s.eng) ∧ ((∀ a, i ≠ .prn a) → t.out = s.out) ∧
    t.pc = s.pc + BitVec.ofNat 9 (1 + i.arity)

/-! ### HLT, LDI, PRN -/

/-- 41_control_and_data.md section HLT: HLT completes in every state with `ENG` HALTED, `pc` one further and nothing else changed;
every further step and run is a no-op until engine reset. The opcode byte and the `pc` after HLT are the spec's decisions D1
and D5 (log entries 2 and 4), the budget and the result AlreadyHalted its decision D11 (log entry 10). -/
def Obligations.HltHaltsTheEngine : Prop :=
  encode .hlt = [0x01] ∧
  (∀ s, ∃ t, exec .hlt s = .next t ∧ t.eng = .halted ∧ t.pc = s.pc + 1 ∧ KeepsRegsAndMem s t ∧ t.out = s.out) ∧
  ∀ s, s.eng = .running → CodeAt s .hlt → ∃ t, step s = .next t ∧ t.eng = .halted ∧ t.pc.toNat = s.pc.toNat + 1 ∧
    KeepsRegsAndMem s t ∧ t.out = s.out ∧ (run none s = (.halted, t)) ∧
    step t = .next t ∧ ∀ budget, run budget t = (.alreadyHalted, t)

/-- 41_control_and_data.md section LDI: LDI completes for every register index 0..7 and every immediate, writing the immediate unchanged
to `x[a]` and nothing else but `pc`; an index of 8 or more faults; operands past the end of memory fault. The
opcode byte is the spec's decision D1 (log entry 2). -/
def Obligations.LdiLoadsItsImmediate : Prop :=
  ∀ (a b : Byte) (s : State),
    encode (.ldi a b) = [0x82, a, b] ∧
    (a.toNat < 8 → ∃ t, exec (.ldi a b) s = .next t ∧ WritesReg s t a.toNat b 3) ∧
    (8 ≤ a.toNat → exec (.ldi a b) s = .fault (.outOfBounds .register a.toNat)) ∧
    (s.eng = .running → CodeAt s (.ldi a b) → step s = exec (.ldi a b) s) ∧
    (s.eng = .running → s.pc = 256 ∨ RunsOffTheEnd s (.ldi a b) → step s = .fault (.outOfBounds .memory 256))

/-- 41_control_and_data.md section PRN: PRN completes for every register index 0..7, appending `x[a]` to `OUT` and changing nothing else
but `pc`; an index of 8 or more faults; an operand past the end of memory faults. The opcode byte is the
spec's decision D1 (log entry 2). -/
def Obligations.PrnEmitsTheRegister : Prop :=
  ∀ (a : Byte) (s : State),
    encode (.prn a) = [0x47, a] ∧
    (∀ v, s.readReg a.toNat = .ok v →
      ∃ t, exec (.prn a) s = .next t ∧ t.out = s.out ++ [v] ∧ KeepsRegsAndMem s t ∧ t.eng = s.eng ∧ t.pc = s.pc + 2) ∧
    (a.toNat < 8 → ∃ v, s.readReg a.toNat = .ok v) ∧
    (8 ≤ a.toNat → exec (.prn a) s = .fault (.outOfBounds .register a.toNat)) ∧
    (s.eng = .running → CodeAt s (.prn a) → step s = exec (.prn a) s) ∧
    (s.eng = .running → s.pc = 256 ∨ RunsOffTheEnd s (.prn a) → step s = .fault (.outOfBounds .memory 256))

/-- 41_control_and_data.md section PRN, the emitted text, for every line terminator (the spec's decision D16, log entry 14):
one more emitted value appends its decimal numeral and the terminator, the numeral's digits read back as the value, and it
has no leading zero. -/
def Obligations.EmittedTextIsDecimalLines : Prop :=
  (∀ lineTerm out v, outText lineTerm (out ++ [v]) = outText lineTerm out ++ decimal v ++ lineTerm) ∧
  (∀ lineTerm, outText lineTerm [] = []) ∧
  ∀ v : Byte, (decimal v).foldl (fun n c => 10 * n + (c.toNat - '0'.toNat)) 0 = v.toNat ∧
    (decimal v).all Char.isDigit = true ∧ decimal v ≠ [] ∧ (v ≠ 0 → (decimal v).head? ≠ some '0') ∧
    decimal 0 = ['0']

/-! ### The ALU and its instructions -/

/-- 42_alu.md section 2: what every ALU instruction does when its bytes stand at the program counter, with the faults in their
order. The common form of the nine is the spec's decision D6 (log entry 5), the fault of a zero divisor its decision D7 (log
entry 6), and that operand1's index is checked before operand2's, and both before the divisor, its decision D9 (log entry
8). -/
def Obligations.AluInstructionStep : Prop :=
  ∀ op a b s, s.eng = .running → CodeAt s (aluInstr op a b) →
    (8 ≤ a.toNat → step s = .fault (.outOfBounds .register a.toNat)) ∧
    (a.toNat < 8 → 8 ≤ b.toNat → step s = .fault (.outOfBounds .register b.toNat)) ∧
    ∀ va vb, s.readReg a.toNat = .ok va → s.readReg b.toNat = .ok vb →
      (op = .div → vb = 0 → step s = .fault .divideByZero) ∧
      (op ≠ .div ∨ vb ≠ 0 → ∃ r t, alu op va vb = .ok r ∧ step s = .next t ∧ WritesReg s t a.toNat r 3)

/-- 42_alu.md section 3, ADD: completes whenever both operands name registers, with `(x[a] + x[b]) mod 256` in `x[a]` and
nothing else changed but `pc`. The form is the spec's decision D6 (log entry 5). -/
def Obligations.AddWrapsModulo256 : Prop :=
  ∀ a b s va vb, s.readReg a.toNat = .ok va → s.readReg b.toNat = .ok vb →
    ∃ t, exec (.add a b) s = .next t ∧ WritesReg s t a.toNat (BitVec.ofNat 8 ((va.toNat + vb.toNat) % 256)) 3

/-- 42_alu.md section 3, SUB: completes whenever both operands name registers; the result is the byte that, added to the
subtrahend `x[b]`, gives the minuend `x[a]` modulo 256. The operation and its operand order are the spec's decision D6 (log
entry 5). -/
def Obligations.SubWrapsModulo256 : Prop :=
  ∀ a b s va vb, s.readReg a.toNat = .ok va → s.readReg b.toNat = .ok vb →
    ∃ t r, exec (.sub a b) s = .next t ∧ WritesReg s t a.toNat r 3 ∧
      (r.toNat : Int) = ((va.toNat : Int) - (vb.toNat : Int)) % 256

/-- 42_alu.md section 3, MUL: MUL completes whenever both operands name registers, with `(x[a] * x[b]) mod 256` in `x[a]` and nothing else
changed but `pc`; its faults are those of the common form. The opcode byte and the order of the two index checks
are the spec's decisions D1 and D9 (log entries 2 and 8). -/
def Obligations.MulKeepsTheLowByte : Prop :=
  ∀ (a b : Byte) (s : State),
    encode (.mul a b) = [0xA2, a, b] ∧
    (∀ va vb, s.readReg a.toNat = .ok va → s.readReg b.toNat = .ok vb →
      ∃ t, exec (.mul a b) s = .next t ∧ WritesReg s t a.toNat (BitVec.ofNat 8 (va.toNat * vb.toNat % 256)) 3) ∧
    (8 ≤ a.toNat → exec (.mul a b) s = .fault (.outOfBounds .register a.toNat)) ∧
    (a.toNat < 8 → 8 ≤ b.toNat → exec (.mul a b) s = .fault (.outOfBounds .register b.toNat)) ∧
    (s.eng = .running → CodeAt s (.mul a b) → step s = exec (.mul a b) s) ∧
    (s.eng = .running → s.pc = 256 ∨ RunsOffTheEnd s (.mul a b) → step s = .fault (.outOfBounds .memory 256))

/-- 42_alu.md section 3, DIV: with a divisor other than 0 it completes with the floor of the quotient in `x[a]`; with a divisor
0 it raises DivideByZero. The whole behaviour is the spec's decision D7 (log entry 6). -/
def Obligations.DivIsFlooredAndFaultsOnZero : Prop :=
  ∀ a b s va vb, s.readReg a.toNat = .ok va → s.readReg b.toNat = .ok vb →
    (vb ≠ 0 → ∃ t, exec (.div a b) s = .next t ∧ WritesReg s t a.toNat (BitVec.ofNat 8 (va.toNat / vb.toNat)) 3) ∧
    (vb = 0 → exec (.div a b) s = .fault .divideByZero)

/-- 42_alu.md section 3, AND, OR, XOR: each completes whenever both operands name registers, and bit `k` of the result is the
and, or, exclusive or of the two values' bits `k`. The three are the spec's decision D6 (log entry 5). -/
def Obligations.LogicalInstructionsAreBitwise : Prop :=
  ∀ a b s va vb, s.readReg a.toNat = .ok va → s.readReg b.toNat = .ok vb →
    (∃ t r, exec (.and a b) s = .next t ∧ WritesReg s t a.toNat r 3 ∧
      ∀ k, k < 8 → r.getLsbD k = (va.getLsbD k && vb.getLsbD k)) ∧
    (∃ t r, exec (.or a b) s = .next t ∧ WritesReg s t a.toNat r 3 ∧
      ∀ k, k < 8 → r.getLsbD k = (va.getLsbD k || vb.getLsbD k)) ∧
    (∃ t r, exec (.xor a b) s = .next t ∧ WritesReg s t a.toNat r 3 ∧
      ∀ k, k < 8 → r.getLsbD k = (va.getLsbD k ^^ vb.getLsbD k))

/-- 42_alu.md section 3, SHL and SHR: each completes whenever both operands name registers; the count is the whole byte
`x[b]`, not reduced modulo 8; the result is `(x[a] * 2^n) mod 256`, and `x[a] div 2^n` (zeros enter), both 0 for a count of 8 or
more. The count's range and the fill are the spec's decision D8 (log entry 7). -/
def Obligations.ShiftsUseTheWholeCount : Prop :=
  ∀ a b s va vb, s.readReg a.toNat = .ok va → s.readReg b.toNat = .ok vb →
    (∃ t r, exec (.shl a b) s = .next t ∧ WritesReg s t a.toNat r 3 ∧
      r.toNat = va.toNat * 2 ^ vb.toNat % 256 ∧ (8 ≤ vb.toNat → r = 0)) ∧
    (∃ t r, exec (.shr a b) s = .next t ∧ WritesReg s t a.toNat r 3 ∧
      r.toNat = va.toNat / 2 ^ vb.toNat ∧ (8 ≤ vb.toNat → r = 0))

/-- 42_alu.md sections 1 and 5: every answer of the ALU is the exact result modulo 256; ADD and MUL are commutative and
associative, MUL distributes over ADD, SUB undoes ADD; SHL is multiplication and SHR division by a power of two, both 0 for a
count of 8 or more; no operation but DIV faults. These rest on the spec's decisions D2 (wraparound, log entry 17), D6 (SUB's
operands, log entry 5), D7 (DIV, log entry 6) and D8 (the shifts, log entry 7). -/
def Obligations.AluLaws : Prop :=
  (∀ op va vb r, alu op va vb = .ok r → ∃ e, aluExact op va.toNat vb.toNat = .ok e ∧ (r.toNat : Int) = e % 256) ∧
  (∀ va vb, alu .add va vb = alu .add vb va ∧ alu .mul va vb = alu .mul vb va) ∧
  (∀ va vb vc, (do alu .add (← alu .add va vb) vc) = (do alu .add va (← alu .add vb vc)) ∧
    (do alu .mul (← alu .mul va vb) vc) = (do alu .mul va (← alu .mul vb vc)) ∧
    (do alu .mul va (← alu .add vb vc)) = (do alu .add (← alu .mul va vb) (← alu .mul va vc)) ∧
    (do alu .sub (← alu .add va vb) vb) = .ok va) ∧
  (∀ va vb, alu .shl va vb = alu .mul va (BitVec.ofNat 8 (2 ^ vb.toNat))) ∧
  (∀ va vb, vb.toNat < 8 → alu .shr va vb = alu .div va (BitVec.ofNat 8 (2 ^ vb.toNat))) ∧
  (∀ va vb, 8 ≤ vb.toNat → alu .shl va vb = .ok 0 ∧ alu .shr va vb = .ok 0) ∧
  ∀ op va vb f, alu op va vb = .error f → op = .div ∧ vb = 0 ∧ f = .divideByZero

/-- 60_exceptions.md section 1, UnsupportedOperation, and 42_alu.md sections 1 and 4: the ALU called by a name outside its
supported set raises UnsupportedOperation with that name, called by one of the nine it does the operation; no step raises it.
That the supported set is these nine is the spec's decision D6 (log entry 5), the contract by name the model's reading (log
entry 19). -/
def Obligations.UnsupportedOperationIsUnreachable : Prop :=
  (∀ name va vb, name ∉ ["ADD", "SUB", "MUL", "DIV", "AND", "OR", "XOR", "SHL", "SHR"] →
    aluApply name va vb = .error (.unsupportedOperation name)) ∧
  (∀ va vb, aluApply "ADD" va vb = alu .add va vb ∧ aluApply "SUB" va vb = alu .sub va vb ∧
    aluApply "MUL" va vb = alu .mul va vb ∧ aluApply "DIV" va vb = alu .div va vb ∧ aluApply "AND" va vb = alu .and va vb ∧
    aluApply "OR" va vb = alu .or va vb ∧ aluApply "XOR" va vb = alu .xor va vb ∧ aluApply "SHL" va vb = alu .shl va vb ∧
    aluApply "SHR" va vb = alu .shr va vb) ∧
  ∀ s name, step s ≠ .fault (.unsupportedOperation name)

/-! ### Faults -/

/-- 30_encoding.md R56: a register-index operand is the whole byte, never masked; an instruction with an operand that names no
register faults with the value of such an operand, and a value 0..7 names that register. -/
def Obligations.RegisterIndexOutOfRangeFaults : Prop :=
  (∀ i s, (∃ r ∈ i.regOperands, 8 ≤ r.toNat) →
    ∃ r ∈ i.regOperands, 8 ≤ r.toNat ∧ exec i s = .fault (.outOfBounds .register r.toNat)) ∧
  (∀ (s : State) (r : Byte), 8 ≤ r.toNat → s.readOperand r = .error (.outOfBounds .register r.toNat)) ∧
  ∀ (s : State) (r : Byte) (h : r.toNat < 8), s.readOperand r = .ok s.regs[r.toNat]

/-- 60_exceptions.md section 1, OutOfBounds: inside a cycle it arises in exactly three ways (in reachable states, which the invariant
describes), each with the offending index, and from the host's accessors exactly when the address is 256 or more or the
index 8 or more, with no state changed. That of two bad operands the first is reported is the spec's decision D9, and that `pc`
is at most 256 its decision D4 (log entries 8 and 3). -/
def Obligations.OutOfBoundsArisesInThreeWays : Prop :=
  (∀ s kind index, StateInv s → (step s = .fault (.outOfBounds kind index) ↔ s.eng = .running ∧
    ((kind = .memory ∧ index = 256 ∧ s.pc.toNat = 256) ∨
     (kind = .memory ∧ index = 256 ∧ ∃ i, RunsOffTheEnd s i) ∨
     (kind = .register ∧ 8 ≤ index ∧ index ≤ 255 ∧ ∃ i r, CodeAt s i ∧
       i.regOperands.find? (fun r => decide (8 ≤ r.toNat)) = some r ∧ r.toNat = index)))) ∧
  (∀ s a, 256 ≤ a → hostStep (.readMemory a) s = (.fault (.outOfBounds .memory a), s) ∧
    ∀ v, hostStep (.writeMemory a v) s = (.fault (.outOfBounds .memory a), s)) ∧
  (∀ s i, 8 ≤ i → hostStep (.readRegister i) s = (.fault (.outOfBounds .register i), s) ∧
    ∀ v, hostStep (.writeRegister i v) s = (.fault (.outOfBounds .register i), s)) ∧
  (∀ s a, a < 256 → (hostStep (.readMemory a) s).1 = .value (s.mem.read a) ∧
    ∀ v, (hostStep (.writeMemory a v) s).1 = .done) ∧
  ∀ s i, i < 8 → (∃ v, (hostStep (.readRegister i) s).1 = .value v) ∧ ∀ v, (hostStep (.writeRegister i v) s).1 = .done

/-- 60_exceptions.md section 1, DivideByZero: a step raises it exactly for a DIV whose operands name registers and whose
divisor register holds 0 (the spec's decision D7, log entry 6). -/
def Obligations.DivideByZeroExactlyWhen : Prop :=
  ∀ s, step s = .fault .divideByZero ↔
    s.eng = .running ∧ ∃ a b, CodeAt s (.div a b) ∧ a.toNat < 8 ∧ s.readReg b.toNat = .ok 0

/-! ### Memory, registers and the host's operations -/

/-- 20_memory.md R33: a write to a valid address is read back, and no other address reads differently. -/
def Obligations.MemoryReadAfterWrite : Prop :=
  ∀ (s : State) (a : Nat) (v : Byte), a < 256 →
    ∃ t, s.memWrite a v = .ok t ∧ t.memRead a = .ok v ∧ ∀ b, b ≠ a → t.memRead b = s.memRead b

/-- 20_memory.md section 10: a byte the host writes between two cycles is what the next fetch of that address returns, with no
fence or flush. Written as byte `k` (the opcode, operand1 or operand2) of any instruction whose other bytes stand at the
program counter, it makes the next step run that instruction; an opcode byte whose operands would lie above address 255
faults in the operand fetch; a byte that is no opcode, written at `pc`, faults with that byte. -/
def Obligations.FetchSeesTheHostsWrite : Prop :=
  (∀ (s t : State) (i : Instr) (k : Nat) (v : Byte), s.eng = .running → (encode i)[k]? = some v →
    (∀ j w, j ≠ k → (encode i)[j]? = some w → s.memRead (s.pc.toNat + j) = .ok w) →
    hostStep (.writeMemory (s.pc.toNat + k) v) s = (.done, t) → step t = exec i t) ∧
  ∀ (s t : State) (v : Byte), s.eng = .running → hostStep (.writeMemory s.pc.toNat v) s = (.done, t) →
    (∀ i : Instr, i.opcode = v → 256 ≤ s.pc.toNat + i.arity → step t = .fault (.outOfBounds .memory 256)) ∧
    (lookupOpcode v = none → step t = .fault (.invalidOpcode v s.pc.toNat))

/-- 20_memory.md R31: a read outside memory faults with the address, never wrapped or truncated; a read inside memory succeeds and
has no side effects. -/
def Obligations.MemoryReadIsChecked : Prop :=
  ∀ (s : State) (a : Nat),
    (256 ≤ a → s.memRead a = .error (.outOfBounds .memory a) ∧
      hostStep (.readMemory a) s = (.fault (.outOfBounds .memory a), s)) ∧
    (a < 256 → s.memRead a = .ok (s.mem.read a) ∧ hostStep (.readMemory a) s = (.value (s.mem.read a), s))

/-- 20_memory.md R34: a register read with an index of 8 or more faults with the index, never masked; below 8 it gives the
register. -/
def Obligations.RegisterReadIsChecked : Prop :=
  ∀ (s : State) (i : Nat),
    (8 ≤ i → s.readReg i = .error (.outOfBounds .register i)) ∧ ∀ h : i < 8, s.readReg i = .ok s.regs[i]

/-- 70_reset_and_hazards.md R152, 20_memory.md R41: an image of at most 256 bytes is placed byte by byte from address 0; a longer
one is ProgramTooLarge, and an empty one writes nothing and succeeds. -/
def Obligations.LoadProgramPlacesTheImage : Prop :=
  ∀ (s : State) (bytes : List Byte),
    (bytes.length ≤ 256 → ∃ t, s.loadProgram bytes = .ok t ∧ ∀ i (h : i < bytes.length), t.memRead i = .ok bytes[i]) ∧
    (256 < bytes.length → s.loadProgram bytes = .error (.programTooLarge bytes.length 256)) ∧
    (bytes = [] → s.loadProgram bytes = .ok s)

/-- 70_reset_and_hazards.md section 3: a load changes no cell above the image and nothing but memory, and a load that fails
changes nothing at all (the spec's decisions D13 and D14, log entry 12). -/
def Obligations.LoadProgramChangesNothingElse : Prop :=
  ∀ (s : State) (bytes : List Byte),
    (∀ t, s.loadProgram bytes = .ok t → (∀ a, bytes.length ≤ a → t.memRead a = s.memRead a) ∧
      t.regs = s.regs ∧ t.pc = s.pc ∧ t.eng = s.eng ∧ t.out = s.out) ∧
    (256 < bytes.length → hostStep (.loadProgram bytes) s = (.fault (.programTooLarge bytes.length 256), s))

/-- The model's canonical form of memory (log entry 18, a choice of the model over 10_state.md section 2): two canonical memories
that read the same everywhere are the same data. -/
def Obligations.EqualReadsAreEqualMemories : Prop :=
  ∀ m m' : Memory, m.wf → m'.wf → (∀ a, a < 256 → m.read a = m'.read a) → m = m'

/-- 60_exceptions.md section 7: the trace snapshot shows `pc`, the bytes at `pc`, `pc + 1`, `pc + 2` that exist, and the registers,
and changes nothing (the spec's decision D20, log entry 15). -/
def Obligations.SnapshotShowsTheNextBytes : Prop :=
  ∀ s, ∃ shot, hostStep .snapshot s = (.trace shot, s) ∧ shot.pc = s.pc ∧ shot.regs = s.regs ∧
    shot.bytes.length = min 3 (256 - s.pc.toNat) ∧
    ∀ k v, shot.bytes[k]? = some v → s.memRead (s.pc.toNat + k) = .ok v

/-! ### Runs -/

/-- 40_fetch_decode_dispatch.md sections 4 and 5, 70_reset_and_hazards.md section 6: every run without a budget ends, halted or
faulted, from every state at all, and a budget of 257 or more is the same as none. The budget is the spec's decision D11 (log
entry 10); that a state with `pc` above 256 faults at once rests on D4 (log entry 3). -/
def Obligations.EveryRunEnds : Prop :=
  (∀ s, (run none s).1 = .alreadyHalted ∨ (run none s).1 = .halted ∨ ∃ f, (run none s).1 = .faulted f) ∧
    ∀ s n, 257 ≤ n → run (some n) s = run none s

/-- 40_fetch_decode_dispatch.md section 5: a suspended run is RUNNING still, and invoking the run loop again goes on as the
undivided run would have (the budget is the spec's decision D11, log entry 10). -/
def Obligations.SuspendedRunResumes : Prop :=
  ∀ s t m, run (some m) s = (.suspended, t) →
    t.eng = .running ∧ ∀ n, run (some (m + n)) s = run (some n) t

/-- 60_exceptions.md section 5, 70_reset_and_hazards.md section 6: a run that faulted leaves the state before the faulting
cycle, RUNNING, and invoking it again with any budget but 0 gives the same fault and the same state. The state after a fault
is the spec's decision D10 (log entry 9), the budget its decision D11 (log entry 10). -/
def Obligations.FaultedRunFaultsAgain : Prop :=
  ∀ b s t f, run b s = (.faulted f, t) →
    t.eng = .running ∧ step t = .fault f ∧ t.mem = s.mem ∧ ∀ n, run (some (n + 1)) t = (.faulted f, t)

/-- 70_reset_and_hazards.md section 6: a run that halted is in HALTED with `pc` at the address after a HLT byte, memory as it
was, and a further run does nothing. `pc` there is the spec's decision D5 (log entry 4), the HLT byte 0x01 its decision D1 (log
entry 2), the budget and the result AlreadyHalted its decision D11 (log entry 10). -/
def Obligations.HaltedRunStandsAfterHlt : Prop :=
  ∀ b s t, run b s = (.halted, t) →
    t.eng = .halted ∧ t.mem = s.mem ∧ 1 ≤ t.pc.toNat ∧ t.mem.read (t.pc.toNat - 1) = 0x01 ∧
    ∀ b', run b' t = (.alreadyHalted, t)

/-- 70_reset_and_hazards.md sections 3, 4 and 6: the image of any well-formed instructions without HLT and DIV, followed by HLT
and fitting memory, once loaded and started by an engine reset, runs to its HLT: Halted, with `pc` at the address after the
image, from every state of the registers, of `OUT` and of the rest of memory; and cut off by any budget it reaches no
fault. `pc` after HLT is the spec's decision D5 (log entry 4), the reset in RUNNING its decision D12 (log entry 11), the budget
its decision D11 (log entry 10). -/
def Obligations.LoadedCodeRunsToItsHalt : Prop :=
  ∀ (is : List Instr) (s t : State), (∀ i ∈ is, i.wf = true ∧ i ≠ .hlt ∧ ∀ a b, i ≠ .div a b) →
    s.loadProgram (is.flatMap encode ++ encode .hlt) = .ok t →
    (∃ u, run none t.engineReset = (.halted, u) ∧ u.pc.toNat = (is.flatMap encode).length + 1 ∧ u.mem = t.mem) ∧
    ∀ budget, safeEnd (run budget t.engineReset).1 = true

/-- Placing a table word at the program counter makes the very next step run the instruction it stands for (the model's own
operation, log entry 16; 30_encoding.md section 1 for the bytes). -/
def Obligations.PlacedWordIsWhatRuns : Prop :=
  ∀ (s : State) nbits w i, s.pc.toNat + 2 < 256 → decodeTableWord nbits w = some i →
    step (s.withFetchWord nbits w) = exec i (s.withFetchWord nbits w)

/-- 40_fetch_decode_dispatch.md section 5: the run loop repeats the cycle. A budget of 0 does nothing; a faulting cycle ends the
run with the state before it, a HLT with the state after it, and after any other cycle the run goes on with one cycle less
(the budget is the spec's decision D11, log entry 10; the state after a fault its decision D10, log entry 9). -/
def Obligations.RunRepeatsTheCycle : Prop :=
  ∀ s, s.eng = .running → run (some 0) s = (.suspended, s) ∧ ∀ n,
    (∀ f, step s = .fault f → run (some (n + 1)) s = (.faulted f, s)) ∧
    ∀ t, step s = .next t →
      (t.eng = .halted → run (some (n + 1)) s = (.halted, t)) ∧ (t.eng = .running → run (some (n + 1)) s = run (some n) t)

/-- 20_memory.md section 2, 70_reset_and_hazards.md section 5: the frame of the host's accessors. A write changes the one cell or
the one register it names and nothing else; a read changes nothing; an accessor that faults changes nothing. The 8-bit port
and the write without a result are the spec's decisions D15 and D19 (log entry 13). -/
def Obligations.HostAccessorsChangeOnePlace : Prop :=
  (∀ s a v, a < 256 → ∃ t, hostStep (.writeMemory a v) s = (.done, t) ∧ t.memRead a = .ok v ∧
    (∀ b, b ≠ a → t.memRead b = s.memRead b) ∧ t.regs = s.regs ∧ t.pc = s.pc ∧ t.eng = s.eng ∧ t.out = s.out) ∧
  (∀ s j v, j < 8 → ∃ t, hostStep (.writeRegister j v) s = (.done, t) ∧ t.readReg j = .ok v ∧
    (∀ k, k ≠ j → t.readReg k = s.readReg k) ∧ t.mem = s.mem ∧ t.pc = s.pc ∧ t.eng = s.eng ∧ t.out = s.out) ∧
  (∀ s a, (hostStep (.readMemory a) s).2 = s ∧ (hostStep (.readRegister a) s).2 = s) ∧
  ∀ s a v, (256 ≤ a → (hostStep (.writeMemory a v) s).2 = s) ∧ (8 ≤ a → (hostStep (.writeRegister a v) s).2 = s)
end

