-- ==== Sys2Proof/Laws/State.lean ====
section
/-! SUPPORT. One lemma per field per update of State, so that no proof unfolds a record update; and the state after
power-on, field by field. -/

namespace Sys2Proof.Machine

@[simp] theorem State.setEngine_mem (s : State) (e : EngineState) : (s.setEngine e).mem = s.mem := rfl
@[simp] theorem State.setEngine_regs (s : State) (e : EngineState) : (s.setEngine e).regs = s.regs := rfl
@[simp] theorem State.setEngine_pc (s : State) (e : EngineState) : (s.setEngine e).pc = s.pc := rfl
@[simp] theorem State.setEngine_eng (s : State) (e : EngineState) : (s.setEngine e).eng = e := rfl
@[simp] theorem State.setEngine_out (s : State) (e : EngineState) : (s.setEngine e).out = s.out := rfl

@[simp] theorem State.emit_mem (s : State) (v : Byte) : (s.emit v).mem = s.mem := rfl
@[simp] theorem State.emit_regs (s : State) (v : Byte) : (s.emit v).regs = s.regs := rfl
@[simp] theorem State.emit_pc (s : State) (v : Byte) : (s.emit v).pc = s.pc := rfl
@[simp] theorem State.emit_eng (s : State) (v : Byte) : (s.emit v).eng = s.eng := rfl
@[simp] theorem State.emit_out (s : State) (v : Byte) : (s.emit v).out = s.out ++ [v] := rfl

@[simp] theorem State.advance_mem (s : State) (n : Nat) : (s.advance n).mem = s.mem := rfl
@[simp] theorem State.advance_regs (s : State) (n : Nat) : (s.advance n).regs = s.regs := rfl
@[simp] theorem State.advance_pc (s : State) (n : Nat) : (s.advance n).pc = s.pc + BitVec.ofNat 9 (1 + n) := rfl
@[simp] theorem State.advance_eng (s : State) (n : Nat) : (s.advance n).eng = s.eng := rfl
@[simp] theorem State.advance_out (s : State) (n : Nat) : (s.advance n).out = s.out := rfl

/-- The state with one register set (`i` names a register). -/
def State.setReg (s : State) (i : Nat) (v : Byte) (h : i < Config.numRegs) : State := { s with regs := s.regs.set i v }

@[simp] theorem State.setReg_mem (s : State) (i : Nat) (v : Byte) (h) : (s.setReg i v h).mem = s.mem := rfl
@[simp] theorem State.setReg_regs (s : State) (i : Nat) (v : Byte) (h) : (s.setReg i v h).regs = s.regs.set i v := rfl
@[simp] theorem State.setReg_pc (s : State) (i : Nat) (v : Byte) (h) : (s.setReg i v h).pc = s.pc := rfl
@[simp] theorem State.setReg_eng (s : State) (i : Nat) (v : Byte) (h) : (s.setReg i v h).eng = s.eng := rfl
@[simp] theorem State.setReg_out (s : State) (i : Nat) (v : Byte) (h) : (s.setReg i v h).out = s.out := rfl

@[simp] theorem State.reset_mem : State.reset.mem = [] := rfl
@[simp] theorem State.reset_pc : State.reset.pc = 0 := rfl
@[simp] theorem State.reset_eng : State.reset.eng = .running := rfl
@[simp] theorem State.reset_out : State.reset.out = [] := rfl

end Sys2Proof.Machine
end

