-- ==== Sys2Proof/Laws/Registers.lean ====
section
/-! SUPPORT. The laws of the register file and of register operands. -/

namespace Sys2Proof.Machine

theorem State.readReg_of_lt (s : State) (i : Nat) (h : i < 8) : s.readReg i = .ok s.regs[i] := by
  simp [State.readReg, h]

theorem State.readReg_of_ge (s : State) (i : Nat) (h : 8 ≤ i) : s.readReg i = .error (.outOfBounds .register i) := by
  simp [State.readReg, Nat.not_lt.mpr h]

theorem State.writeReg_of_lt (s : State) (i : Nat) (v : Byte) (h : i < 8) : s.writeReg i v = .ok (s.setReg i v h) := by
  simp [State.writeReg, h, State.setReg]

theorem State.writeReg_of_ge (s : State) (i : Nat) (v : Byte) (h : 8 ≤ i) :
    s.writeReg i v = .error (.outOfBounds .register i) := by
  simp [State.writeReg, Nat.not_lt.mpr h]

/-- A register that can be read is one of the eight (20_memory.md R34). -/
theorem State.readReg_ok {s : State} {i : Nat} {v : Byte} (h : s.readReg i = .ok v) : ∃ hi : i < 8, s.regs[i] = v := by
  by_cases hi : i < 8
  · rw [s.readReg_of_lt i hi] at h
    exact ⟨hi, by simpa using h⟩
  · rw [s.readReg_of_ge i (Nat.le_of_not_lt hi)] at h
    simp at h

/-- A read depends on the register file alone. -/
theorem State.readReg_congr {s t : State} (h : t.regs = s.regs) (i : Nat) : t.readReg i = s.readReg i := by
  simp [State.readReg, h]

/-- A read after a write: the written value in the written register, what was there before elsewhere (20_memory.md R34,
R35). -/
theorem State.readReg_setReg (s : State) (d : Nat) (v : Byte) (hd : d < 8) (j : Nat) :
    (s.setReg d v hd).readReg j = if j = d then .ok v else s.readReg j := by
  by_cases hj : j < 8
  · rw [State.readReg_of_lt _ _ hj, State.readReg_of_lt _ _ hj]
    by_cases h : j = d
    · subst h; simp
    · simp [h, Ne.symm h]
  · have : j ≠ d := by omega
    rw [State.readReg_of_ge _ _ (Nat.le_of_not_lt hj), State.readReg_of_ge _ _ (Nat.le_of_not_lt hj)]
    simp [this]

@[simp] theorem State.readOperand_eq (s : State) (r : Byte) : s.readOperand r = s.readReg r.toNat := rfl
@[simp] theorem State.writeOperand_eq (s : State) (r v : Byte) : s.writeOperand r v = s.writeReg r.toNat v := rfl
@[simp] theorem immediate_eq (b : Byte) : immediate b = b := rfl

theorem State.reset_readReg (i : Nat) (h : i < 8) : State.reset.readReg i = .ok 0 := by
  rw [State.readReg_of_lt _ _ h]
  simp [State.reset, Config.regReset]

end Sys2Proof.Machine
end

