-- ==== Sys2Proof/Laws/Alu.lean ====
section
/-! SUPPORT. What the ALU answers for each operation, and what the common form of an ALU instruction does. -/

namespace Sys2Proof.Machine

/-- The wrapped byte is congruent to the exact result modulo 256 (42_alu.md R101). -/
theorem wrapByte_toNat (r : Int) : ((wrapByte r).toNat : Int) = r % 256 := by
  have h : (0 : Int) ≤ r % 256 := Int.emod_nonneg _ (by norm_num)
  simp [wrapByte, BitVec.toNat_ofInt, Int.toNat_of_nonneg h]

theorem wrapByte_natCast (n : Nat) : wrapByte (n : Int) = BitVec.ofNat 8 n := by
  apply BitVec.eq_of_toNat_eq
  have h := wrapByte_toNat (n : Int)
  simp only [BitVec.toNat_ofNat]
  omega

theorem alu_add (va vb : Byte) : alu .add va vb = .ok (BitVec.ofNat 8 (va.toNat + vb.toNat)) := by
  have h : ((va.toNat : Int) + (vb.toNat : Int)) = ((va.toNat + vb.toNat : Nat) : Int) := by push_cast; rfl
  simp only [alu, aluExact, h, wrapByte_natCast]

theorem alu_sub (va vb : Byte) : alu .sub va vb = .ok (va - vb) := by
  simp only [alu, aluExact]
  congr 1
  apply BitVec.eq_of_toNat_eq
  have h := wrapByte_toNat ((va.toNat : Int) - (vb.toNat : Int))
  simp only [BitVec.toNat_sub]
  omega

theorem alu_mul (va vb : Byte) : alu .mul va vb = .ok (BitVec.ofNat 8 (va.toNat * vb.toNat)) := by
  have h : ((va.toNat : Int) * (vb.toNat : Int)) = ((va.toNat * vb.toNat : Nat) : Int) := by push_cast; rfl
  simp only [alu, aluExact, h, wrapByte_natCast]

theorem alu_div_zero (va : Byte) : alu .div va 0#8 = .error .divideByZero := by
  simp [alu, aluExact]

theorem alu_div (va vb : Byte) (h : vb ≠ 0) : alu .div va vb = .ok (BitVec.ofNat 8 (va.toNat / vb.toNat)) := by
  have h' : vb.toNat ≠ 0 := fun e => h (BitVec.eq_of_toNat_eq (by simpa using e))
  simp only [alu, aluExact, if_neg h', wrapByte_natCast]

theorem alu_and (va vb : Byte) : alu .and va vb = .ok (va &&& vb) := by
  simp only [alu, aluExact, wrapByte_natCast]
  congr 1
  apply BitVec.eq_of_toNat_eq
  rw [← BitVec.toNat_and]
  simp

theorem alu_or (va vb : Byte) : alu .or va vb = .ok (va ||| vb) := by
  simp only [alu, aluExact, wrapByte_natCast]
  congr 1
  apply BitVec.eq_of_toNat_eq
  rw [← BitVec.toNat_or]
  simp

theorem alu_xor (va vb : Byte) : alu .xor va vb = .ok (va ^^^ vb) := by
  simp only [alu, aluExact, wrapByte_natCast]
  congr 1
  apply BitVec.eq_of_toNat_eq
  rw [← BitVec.toNat_xor]
  simp

theorem alu_shl (va vb : Byte) : alu .shl va vb = .ok (va <<< vb.toNat) := by
  simp only [alu, aluExact, wrapByte_natCast]
  congr 1

theorem alu_shr (va vb : Byte) : alu .shr va vb = .ok (va >>> vb.toNat) := by
  simp only [alu, aluExact, wrapByte_natCast]
  congr 1
  apply BitVec.eq_of_toNat_eq
  rw [← BitVec.toNat_ushiftRight, BitVec.toNat_ofNat, Nat.mod_eq_of_lt (BitVec.isLt _)]

/-- Everything the ALU can answer: a byte, or DivideByZero for DIV with a zero divisor (42_alu.md R100, R106). -/
theorem alu_cases (op : AluOp) (va vb : Byte) :
    (∃ r, alu op va vb = .ok r) ∨ (op = .div ∧ vb = 0 ∧ alu op va vb = .error .divideByZero) := by
  cases op with
  | div =>
    by_cases h : vb = 0
    · subst h; exact .inr ⟨rfl, rfl, alu_div_zero va⟩
    · exact .inl ⟨_, alu_div va vb h⟩
  | _ => exact .inl ⟨_, rfl⟩

/-- The common form, once and whole (42_alu.md R102): the two register checks in order, the ALU, the one write. -/
theorem State.aluInto_eq (op : AluOp) (a b : Byte) (s : State) :
    s.aluInto op a b =
      if ha : a.toNat < 8 then
        if hb : b.toNat < 8 then
          match alu op s.regs[a.toNat] s.regs[b.toNat] with
          | .ok r => .ok (s.setReg a.toNat r ha)
          | .error f => .error f
        else .error (.outOfBounds .register b.toNat)
      else .error (.outOfBounds .register a.toNat) := by
  unfold State.aluInto
  by_cases ha : a.toNat < 8
  · by_cases hb : b.toNat < 8
    · simp only [State.readOperand_eq, State.writeOperand_eq, s.readReg_of_lt _ ha, s.readReg_of_lt _ hb, ha, hb, dite_true]
      simp only [bind, Except.bind]
      cases alu op s.regs[a.toNat] s.regs[b.toNat] with
      | ok r => simp [s.writeReg_of_lt _ _ ha]
      | error f => rfl
    · simp [s.readReg_of_lt _ ha, s.readReg_of_ge _ (Nat.le_of_not_lt hb), ha, hb, bind, Except.bind]
  · simp [s.readReg_of_ge _ (Nat.le_of_not_lt ha), ha, bind, Except.bind]

/-- The common form where both operands can be read. -/
theorem State.aluInto_of_read {op : AluOp} {a b : Byte} {s : State} {va vb : Byte}
    (ha : s.readReg a.toNat = .ok va) (hb : s.readReg b.toNat = .ok vb) :
    ∃ h : a.toNat < 8, s.aluInto op a b =
      match alu op va vb with
      | .ok r => .ok (s.setReg a.toNat r h)
      | .error f => .error f := by
  obtain ⟨h, rfl⟩ := State.readReg_ok ha
  obtain ⟨h', rfl⟩ := State.readReg_ok hb
  exact ⟨h, by rw [State.aluInto_eq]; simp [h, h']⟩

end Sys2Proof.Machine
end

