-- ==== Sys2Proof/Laws/Decode.lean ====
section
/-! SUPPORT. The laws of the opcode table, the decoder and the encoder's parts. -/

namespace Sys2Proof

/-- What a format makes of its operand bytes: the opcode and the operands it was given. -/
def Form.Makes (op : Byte) : Form → Prop
  | .f0 i => i.opcode = op ∧ i.operands = []
  | .f1 mk => ∀ a, (mk a).opcode = op ∧ (mk a).operands = [a]
  | .f2 mk => ∀ a b, (mk a b).opcode = op ∧ (mk a b).operands = [a, b]

/-- Every row of the table makes instructions of its own opcode byte. -/
theorem opcodeTable_makes : ∀ row ∈ opcodeTable, row.form.Makes row.opcode := by
  intro row h
  simp only [opcodeTable, List.mem_cons, List.not_mem_nil, or_false] at h
  rcases h with rfl | rfl | rfl | rfl | rfl | rfl | rfl | rfl | rfl | rfl | rfl | rfl <;>
    simp [Form.Makes, Instr.opcode, Instr.operands]

/-- A row that a lookup finds is a row of the table, under the byte looked up. -/
theorem lookupOpcode_some {op : Byte} {row : OpcodeRow} (h : lookupOpcode op = some row) :
    row ∈ opcodeTable ∧ row.opcode = op :=
  ⟨List.mem_of_find?_eq_some h, by simpa using List.find?_some h⟩

theorem lookupOpcode_makes {op : Byte} {row : OpcodeRow} (h : lookupOpcode op = some row) : row.form.Makes op := by
  obtain ⟨hmem, rfl⟩ := lookupOpcode_some h
  exact opcodeTable_makes row hmem

/-- Looking up an instruction's own opcode byte finds the row whose format makes it. -/
theorem lookupOpcode_opcode (i : Instr) : ∃ row, lookupOpcode i.opcode = some row ∧
    match row.form with
    | .f0 j => i = j
    | .f1 mk => ∃ a, i = mk a
    | .f2 mk => ∃ a b, i = mk a b := by
  cases i with
  | hlt => exact ⟨_, rfl, rfl⟩
  | prn a => exact ⟨_, rfl, a, rfl⟩
  | _ a b => exact ⟨_, rfl, a, b, rfl⟩

/-- The arity is 0, 1 or 2 (30_encoding.md R50). -/
theorem Instr.arity_le (i : Instr) : i.arity ≤ 2 := by
  cases i <;> simp [Instr.arity, Instr.operands]

theorem encode_length (i : Instr) : (encode i).length = 1 + i.arity := by
  simp [encode, Instr.arity, Nat.add_comm]

/-- The register operands of an instruction are among its operand bytes. -/
theorem Instr.regOperands_subset (i : Instr) : ∀ r ∈ i.regOperands, r ∈ i.operands := by
  cases i <;> simp [Instr.regOperands, Instr.operands]

/-- A register-index byte names a register exactly when it is below 8 (30_encoding.md R56). -/
@[simp] theorem regIndexOk_iff (r : Byte) : regIndexOk r = true ↔ r.toNat < 8 := by simp [regIndexOk]

end Sys2Proof
end

