-- ==== Sys2Proof/Laws/Memory.lean ====
section
/-! SUPPORT. The laws of memory: what a read after each operation gives, and that each operation keeps the canonical
form. -/

namespace Sys2Proof.Machine

@[simp] theorem Memory.read_nil (a : Nat) : Memory.read [] a = Memory.unlisted := rfl

theorem Memory.read_of_not_listed (m : Memory) (a : Nat) (h : ∀ c ∈ m, c.1 ≠ a) : m.read a = Memory.unlisted := by
  induction m with
  | nil => rfl
  | cons c m ih => simp [Memory.read, h c (by simp), ih (fun d hd => h d (by simp [hd]))]

theorem Memory.erase_not_listed (m : Memory) (a : Nat) : ∀ c ∈ m.erase a, c.1 ≠ a := by
  intro c hc
  simpa using (List.mem_filter.mp hc).2

/-- Unlisting an address makes it read as an unlisted one, and no other address reads differently. -/
theorem Memory.read_erase (m : Memory) (a b : Nat) :
    (m.erase a).read b = if b = a then Memory.unlisted else m.read b := by
  induction m with
  | nil => simp [Memory.erase]
  | cons c m ih =>
    by_cases hc : c.1 = a
    · have : Memory.erase (c :: m) a = Memory.erase m a := by simp [Memory.erase, hc]
      rw [this, ih]
      by_cases hb : b = a
      · simp [hb]
      · have : ¬ c.1 = b := fun h => hb (h.symm.trans hc)
        simp [hb, Memory.read, this]
    · have : Memory.erase (c :: m) a = c :: Memory.erase m a := by simp [Memory.erase, hc]
      rw [this]
      by_cases hb : b = a
      · subst hb
        simp [Memory.read, hc, ih]
      · by_cases hcb : c.1 = b <;> simp [Memory.read, hcb, ih, hb]

/-- Inserting an entry for an address no entry lists. -/
theorem Memory.read_insertCell (a : Nat) (v : Byte) (m : Memory) (b : Nat) (h : ∀ c ∈ m, c.1 ≠ a) :
    (Memory.insertCell a v m).read b = if b = a then v else m.read b := by
  induction m with
  | nil =>
    by_cases hb : b = a
    · simp [Memory.insertCell, Memory.read, hb]
    · simp [Memory.insertCell, Memory.read, hb, Ne.symm hb]
  | cons c m ih =>
    have hc : c.1 ≠ a := h c (by simp)
    have ih' := ih (fun d hd => h d (by simp [hd]))
    unfold Memory.insertCell
    by_cases hlt : a < c.1
    · by_cases hb : b = a
      · simp [hlt, Memory.read, hb]
      · simp [hlt, Memory.read, hb, Ne.symm hb]
    · by_cases hb : b = a
      · subst hb
        simp [hlt, Memory.read, hc, ih']
      · rw [if_neg hlt]
        by_cases hcb : c.1 = b <;> simp [Memory.read, hcb, ih', hb]

/-- A read after a write: the written byte at the written address, what was there before elsewhere (20_memory.md R33). -/
theorem Memory.read_write (m : Memory) (a : Nat) (v : Byte) (b : Nat) :
    (m.write a v).read b = if b = a then v else m.read b := by
  unfold Memory.write
  split
  · rename_i hv; subst hv; exact m.read_erase a b
  · rw [Memory.read_insertCell _ _ _ _ (m.erase_not_listed a), Memory.read_erase]
    by_cases hb : b = a <;> simp [hb]

/-- A read after bytes were written in order. -/
theorem Memory.read_writeBytes (vs : List Byte) (m : Memory) (a b : Nat) :
    (m.writeBytes a vs).read b =
      if a ≤ b ∧ b < a + vs.length ∧ b < 256 then vs.getD (b - a) 0 else m.read b := by
  induction vs generalizing m a with
  | nil => simp [Memory.writeBytes]; omega
  | cons v vs ih =>
    rw [Memory.writeBytes, ih]
    by_cases hb : b = a
    · subst hb
      by_cases hlt : b < 256
      · simp [hlt, Memory.read_write]
      · simp [hlt]
    · have hread : (if a < Config.memSize then m.write a v else m).read b = m.read b := by
        split
        · simp [Memory.read_write, hb]
        · rfl
      rw [hread]
      by_cases hin : a + 1 ≤ b ∧ b < a + 1 + vs.length ∧ b < 256
      · have hin' : a ≤ b ∧ b < a + (v :: vs).length ∧ b < 256 := by simp; omega
        rw [if_pos hin, if_pos hin']
        obtain ⟨k, hk⟩ : ∃ k, b - a = k + 1 := ⟨b - a - 1, by omega⟩
        rw [hk, show b - (a + 1) = k by omega]
        simp
      · have hin' : ¬ (a ≤ b ∧ b < a + (v :: vs).length ∧ b < 256) := by simp; omega
        rw [if_neg hin, if_neg hin']

/-! ### The canonical form -/

theorem Memory.wf_nil : Memory.wf [] := by simp [Memory.wf]

theorem Memory.wf_erase (m : Memory) (a : Nat) (h : m.wf) : (m.erase a).wf :=
  ⟨h.1.sublist List.filter_sublist, fun c hc => h.2 c (List.mem_filter.mp hc).1⟩

theorem Memory.mem_insertCell (a : Nat) (v : Byte) (m : Memory) (c : Host.Cell) :
    c ∈ Memory.insertCell a v m ↔ c = (a, v) ∨ c ∈ m := by
  induction m with
  | nil => simp [Memory.insertCell]
  | cons d m ih =>
    unfold Memory.insertCell
    split
    · simp
    · simp only [List.mem_cons, ih]; tauto

theorem Memory.wf_insertCell (a : Nat) (v : Byte) (m : Memory) (h : m.wf) (ha : a < 256) (hv : v ≠ Memory.unlisted)
    (hn : ∀ c ∈ m, c.1 ≠ a) : (Memory.insertCell a v m).wf := by
  refine ⟨?_, ?_⟩
  · induction m with
    | nil => simp [Memory.insertCell]
    | cons c m ih =>
      obtain ⟨hc, hm⟩ := List.pairwise_cons.mp h.1
      unfold Memory.insertCell
      split
      · rename_i hlt
        refine List.pairwise_cons.mpr ⟨?_, h.1⟩
        intro d hd
        rcases List.mem_cons.mp hd with rfl | hd
        · exact hlt
        · exact lt_trans hlt (hc d hd)
      · rename_i hlt
        have hca : c.1 ≠ a := hn c (by simp)
        refine List.pairwise_cons.mpr ⟨?_, ih ⟨hm, fun d hd => h.2 d (by simp [hd])⟩ (fun d hd => hn d (by simp [hd]))⟩
        intro d hd
        rcases (Memory.mem_insertCell a v m d).mp hd with rfl | hd
        · show c.1 < a
          omega
        · exact hc d hd
  · intro c hc
    rcases (Memory.mem_insertCell a v m c).mp hc with rfl | hc
    · exact ⟨ha, hv⟩
    · exact h.2 c hc

/-- A write inside the address space keeps the canonical form. -/
theorem Memory.wf_write (m : Memory) (a : Nat) (v : Byte) (h : m.wf) (ha : a < 256) : (m.write a v).wf := by
  unfold Memory.write
  split
  · exact m.wf_erase a h
  · exact Memory.wf_insertCell a v _ (m.wf_erase a h) ha ‹_› (m.erase_not_listed a)

/-- Writing bytes in order keeps the canonical form. -/
theorem Memory.wf_writeBytes (vs : List Byte) (m : Memory) (a : Nat) (h : m.wf) : (m.writeBytes a vs).wf := by
  induction vs generalizing m a with
  | nil => exact h
  | cons v vs ih =>
    rw [Memory.writeBytes]
    refine ih _ _ ?_
    split
    · exact m.wf_write a v h (by simpa using ‹a < Config.memSize›)
    · exact h

theorem State.reset_mem_wf : State.reset.mem.wf := Memory.wf_nil

/-! ### The checked accesses -/

theorem State.memRead_of_lt (s : State) (a : Nat) (h : a < 256) : s.memRead a = .ok (s.mem.read a) := by
  simp [State.memRead, h]

theorem State.memRead_of_ge (s : State) (a : Nat) (h : 256 ≤ a) : s.memRead a = .error (.outOfBounds .memory a) := by
  simp [State.memRead, Nat.not_lt.mpr h]

/-- Everything a checked write can do (20_memory.md R32). -/
theorem State.memWrite_cases (s : State) (a : Nat) (v : Byte) :
    (a < 256 ∧ s.memWrite a v = .ok { s with mem := s.mem.write a v }) ∨
      (256 ≤ a ∧ s.memWrite a v = .error (.outOfBounds .memory a)) := by
  unfold State.memWrite
  by_cases h : a < 256
  · exact .inl ⟨h, by simp [h]⟩
  · exact .inr ⟨Nat.le_of_not_lt h, by simp [h]⟩

end Sys2Proof.Machine
end

