-- ==== Sys2Proof/Laws/Exec.lean ====
section
/-! SUPPORT. What each instruction's execution answers, and what any of them can do. -/

namespace Sys2Proof.Machine

open Sys2Proof.Safety

@[simp] theorem complete_ok (n : Nat) (s : State) : complete n (.ok s) = .next (s.advance n) := rfl
@[simp] theorem complete_error (n : Nat) (f : Fault) : complete n (.error f) = .fault f := rfl

/-- The four shapes of an instruction: HLT, LDI, PRN and an ALU operation. -/
theorem Instr.shapes (i : Instr) :
    i = .hlt ∨ (∃ a b, i = .ldi a b) ∨ (∃ a, i = .prn a) ∨ ∃ op a b, i = aluInstr op a b := by
  cases i with
  | hlt => exact .inl rfl
  | ldi a b => exact .inr (.inl ⟨a, b, rfl⟩)
  | prn a => exact .inr (.inr (.inl ⟨a, rfl⟩))
  | add a b => exact .inr (.inr (.inr ⟨.add, a, b, rfl⟩))
  | sub a b => exact .inr (.inr (.inr ⟨.sub, a, b, rfl⟩))
  | mul a b => exact .inr (.inr (.inr ⟨.mul, a, b, rfl⟩))
  | div a b => exact .inr (.inr (.inr ⟨.div, a, b, rfl⟩))
  | and a b => exact .inr (.inr (.inr ⟨.and, a, b, rfl⟩))
  | or a b => exact .inr (.inr (.inr ⟨.or, a, b, rfl⟩))
  | xor a b => exact .inr (.inr (.inr ⟨.xor, a, b, rfl⟩))
  | shl a b => exact .inr (.inr (.inr ⟨.shl, a, b, rfl⟩))
  | shr a b => exact .inr (.inr (.inr ⟨.shr, a, b, rfl⟩))

theorem exec_hlt (s : State) : exec .hlt s = .next ((s.setEngine .halted).advance 0) := rfl

theorem exec_ldi (a b : Byte) (s : State) :
    exec (.ldi a b) s =
      if h : a.toNat < 8 then .next ((s.setReg a.toNat b h).advance 2) else .fault (.outOfBounds .register a.toNat) := by
  show complete 2 (s.writeReg a.toNat b) = _
  by_cases h : a.toNat < 8
  · simp [h, s.writeReg_of_lt _ _ h]
  · simp [h, s.writeReg_of_ge _ _ (Nat.le_of_not_lt h)]

theorem exec_prn (a : Byte) (s : State) :
    exec (.prn a) s =
      if h : a.toNat < 8 then .next ((s.emit s.regs[a.toNat]).advance 1) else .fault (.outOfBounds .register a.toNat) := by
  show complete 1 ((s.readReg a.toNat).map s.emit) = _
  by_cases h : a.toNat < 8
  · simp [h, s.readReg_of_lt _ h, Except.map]
  · simp [h, s.readReg_of_ge _ (Nat.le_of_not_lt h), Except.map]

theorem exec_aluInstr (op : AluOp) (a b : Byte) (s : State) :
    exec (aluInstr op a b) s = complete 2 (s.aluInto op a b) := by
  cases op <;> rfl

@[simp] theorem aluInstr_operands (op : AluOp) (a b : Byte) : (aluInstr op a b).operands = [a, b] := by cases op <;> rfl
@[simp] theorem aluInstr_arity (op : AluOp) (a b : Byte) : (aluInstr op a b).arity = 2 := by cases op <;> rfl
@[simp] theorem aluInstr_regOperands (op : AluOp) (a b : Byte) : (aluInstr op a b).regOperands = [a, b] := by
  cases op <;> rfl
@[simp] theorem aluInstr_regWritten (op : AluOp) (a b : Byte) : regWritten (aluInstr op a b) = some a := by cases op <;> rfl
@[simp] theorem aluInstr_regsRead (op : AluOp) (a b : Byte) : regsRead (aluInstr op a b) = [a, b] := by cases op <;> rfl

/-- The suggested selector encoding: the low four bits of an ALU instruction's opcode byte select its operation, bit 5 is set
(42_alu.md R113, 30_encoding.md R53). -/
theorem aluInstr_selector (op : AluOp) (a b : Byte) :
    AluOp.ofSelector? ((aluInstr op a b).opcode.extractLsb' 0 4) = some op ∧ (aluInstr op a b).opcode.getLsbD 5 = true := by
  have h : ∀ op : AluOp, (aluInstr op a b).opcode = (aluInstr op 0 0).opcode := fun op => by cases op <;> rfl
  rw [h]
  cases op <;> decide

/-- Everything an ALU instruction can do (42_alu.md R102). -/
theorem exec_aluInstr_cases (op : AluOp) (a b : Byte) (s : State) :
    (∃ (ha : a.toNat < 8) (hb : b.toNat < 8) (r : Byte), alu op s.regs[a.toNat] s.regs[b.toNat] = .ok r ∧
      exec (aluInstr op a b) s = .next ((s.setReg a.toNat r ha).advance 2)) ∨
    (8 ≤ a.toNat ∧ exec (aluInstr op a b) s = .fault (.outOfBounds .register a.toNat)) ∨
    (a.toNat < 8 ∧ 8 ≤ b.toNat ∧ exec (aluInstr op a b) s = .fault (.outOfBounds .register b.toNat)) ∨
    (a.toNat < 8 ∧ op = .div ∧ s.readReg b.toNat = .ok 0 ∧ exec (aluInstr op a b) s = .fault .divideByZero) := by
  rw [exec_aluInstr, State.aluInto_eq]
  by_cases ha : a.toNat < 8
  · by_cases hb : b.toNat < 8
    · rcases alu_cases op s.regs[a.toNat] s.regs[b.toNat] with ⟨r, hr⟩ | ⟨hop, hz, he⟩
      · exact .inl ⟨ha, hb, r, hr, by simp [ha, hb, hr]⟩
      · exact .inr (.inr (.inr ⟨ha, hop, by rw [s.readReg_of_lt _ hb, hz], by simp [ha, hb, he]⟩))
    · exact .inr (.inr (.inl ⟨ha, Nat.le_of_not_lt hb, by simp [ha, hb]⟩))
  · exact .inr (.inl ⟨Nat.le_of_not_lt ha, by simp [ha]⟩)

/-- Everything an instruction that completes does to each piece of state: memory is unchanged, one register at most is
written, `ENG` and `OUT` change as the instruction says, and `pc` moves past it. -/
theorem exec_next {i : Instr} {s t : State} (h : exec i s = .next t) :
    t.mem = s.mem ∧
    ((regWritten i = none ∧ t.regs = s.regs) ∨
      ∃ d v, regWritten i = some d ∧ ∃ hd : d.toNat < 8, t.regs = (s.setReg d.toNat v hd).regs) ∧
    t.eng = (if i = .hlt then .halted else s.eng) ∧
    ((t.out = s.out ∧ ∀ a, i ≠ .prn a) ∨ ∃ a v, i = .prn a ∧ s.readReg a.toNat = .ok v ∧ t.out = s.out ++ [v]) ∧
    t.pc = s.pc + BitVec.ofNat 9 (1 + i.arity) := by
  rcases Instr.shapes i with rfl | ⟨a, b, rfl⟩ | ⟨a, rfl⟩ | ⟨op, a, b, rfl⟩
  · rw [exec_hlt] at h
    cases h
    exact ⟨rfl, .inl ⟨rfl, rfl⟩, rfl, .inl ⟨rfl, by simp⟩, rfl⟩
  · rw [exec_ldi] at h
    split at h
    · cases h
      exact ⟨rfl, .inr ⟨a, b, rfl, ‹_›, rfl⟩, rfl, .inl ⟨rfl, by simp⟩, rfl⟩
    · cases h
  · rw [exec_prn] at h
    split at h
    · cases h
      exact ⟨rfl, .inl ⟨rfl, rfl⟩, rfl, .inr ⟨a, _, rfl, s.readReg_of_lt _ ‹_›, rfl⟩, rfl⟩
    · cases h
  · have hne : aluInstr op a b ≠ .hlt ∧ ∀ c, aluInstr op a b ≠ .prn c := by cases op <;> simp [aluInstr]
    rcases exec_aluInstr_cases op a b s with ⟨ha, hb, r, -, he⟩ | ⟨-, he⟩ | ⟨-, -, he⟩ | ⟨-, -, -, he⟩ <;> rw [he] at h <;>
      cases h
    exact ⟨rfl, .inr ⟨a, r, by simp, ha, rfl⟩, by simp [hne.1], .inl ⟨rfl, hne.2⟩, by simp⟩

/-- Every fault an instruction's execution can raise (60_exceptions.md R121, R124). -/
theorem exec_fault {i : Instr} {s : State} {f : Fault} (h : exec i s = .fault f) :
    (∃ r ∈ i.regOperands, 8 ≤ r.toNat ∧ f = .outOfBounds .register r.toNat) ∨
    (f = .divideByZero ∧ divisorZero s i = true) := by
  rcases Instr.shapes i with rfl | ⟨a, b, rfl⟩ | ⟨a, rfl⟩ | ⟨op, a, b, rfl⟩
  · cases h
  · rw [exec_ldi] at h
    split at h
    · cases h
    · cases h
      exact .inl ⟨a, by simp [Instr.regOperands], Nat.le_of_not_lt ‹_›, rfl⟩
  · rw [exec_prn] at h
    split at h
    · cases h
    · cases h
      exact .inl ⟨a, by simp [Instr.regOperands], Nat.le_of_not_lt ‹_›, rfl⟩
  · rcases exec_aluInstr_cases op a b s with ⟨ha, hb, r, -, he⟩ | ⟨ha, he⟩ | ⟨-, hb, he⟩ | ⟨-, rfl, hz, he⟩ <;> rw [he] at h <;>
      cases h
    · exact .inl ⟨a, by simp, ha, rfl⟩
    · exact .inl ⟨b, by simp, hb, rfl⟩
    · exact .inr ⟨rfl, by simp [aluInstr, divisorZero, hz]⟩

/-- No instruction is refused. -/
theorem exec_ne_refused (i : Instr) (s : State) (r : Refusal) : exec i s ≠ .refused r := by
  rcases Instr.shapes i with rfl | ⟨a, b, rfl⟩ | ⟨a, rfl⟩ | ⟨op, a, b, rfl⟩
  · simp [exec_hlt]
  · rw [exec_ldi]; split <;> simp
  · rw [exec_prn]; split <;> simp
  · rcases exec_aluInstr_cases op a b s with ⟨_, _, _, _, he⟩ | ⟨_, he⟩ | ⟨_, _, he⟩ | ⟨_, _, _, he⟩ <;> simp [he]

end Sys2Proof.Machine
end

