-- ==== Sys2Proof/Laws/Fetch.lean ====
section
/-! SUPPORT. What the fetch-decode unit answers: an instruction exactly when its bytes stand at the program counter, and
otherwise which fault. -/

namespace Sys2Proof.Machine

open Sys2Proof.Safety

/-- The bytes of an instruction stand at the program counter exactly when its opcode and each operand can be read there. -/
theorem codeAt_iff (s : State) (i : Instr) :
    CodeAt s i ↔ s.memRead s.pc.toNat = .ok i.opcode ∧
      ∀ k v, i.operands[k]? = some v → s.memRead (s.pc.toNat + (k + 1)) = .ok v := by
  constructor
  · intro h
    exact ⟨by simpa [encode] using h 0 i.opcode (by simp [encode]), fun k v hv => h (k + 1) v (by simpa [encode] using hv)⟩
  · rintro ⟨h0, hs⟩ k v hv
    cases k with
    | zero => simp only [encode, List.getElem?_cons_zero, Option.some.injEq] at hv; simpa [hv] using h0
    | succ k => exact hs k v (by simpa [encode] using hv)

theorem codeAt_f0 {s : State} {i : Instr} (ho : i.operands = []) :
    CodeAt s i ↔ s.memRead s.pc.toNat = .ok i.opcode := by
  simp [codeAt_iff, ho]

theorem codeAt_f1 {s : State} {i : Instr} {a : Byte} (ho : i.operands = [a]) :
    CodeAt s i ↔ s.memRead s.pc.toNat = .ok i.opcode ∧ s.memRead (s.pc.toNat + 1) = .ok a := by
  rw [codeAt_iff, ho]
  refine and_congr_right fun _ => ⟨fun h => h 0 a rfl, fun h k v hv => ?_⟩
  cases k with
  | zero => simp only [List.getElem?_cons_zero, Option.some.injEq] at hv; simpa [hv] using h
  | succ k => simp at hv

theorem codeAt_f2 {s : State} {i : Instr} {a b : Byte} (ho : i.operands = [a, b]) :
    CodeAt s i ↔ s.memRead s.pc.toNat = .ok i.opcode ∧ s.memRead (s.pc.toNat + 1) = .ok a ∧
      s.memRead (s.pc.toNat + 2) = .ok b := by
  rw [codeAt_iff, ho]
  refine and_congr_right fun _ => ⟨fun h => ⟨h 0 a rfl, h 1 b rfl⟩, fun h k v hv => ?_⟩
  match k with
  | 0 => simp only [List.getElem?_cons_zero, Option.some.injEq] at hv; simpa [hv] using h.1
  | 1 => simp only [List.getElem?_cons_succ, List.getElem?_cons_zero, Option.some.injEq] at hv; simpa [hv] using h.2
  | k + 2 => simp at hv

theorem State.memRead_ok {s : State} {a : Nat} {v : Byte} (h : s.memRead a = .ok v) : a < 256 ∧ s.mem.read a = v := by
  by_cases ha : a < 256
  · rw [s.memRead_of_lt a ha] at h
    exact ⟨ha, by simpa using h⟩
  · rw [s.memRead_of_ge a (Nat.le_of_not_lt ha)] at h
    simp at h

/-- Code that stands at the program counter lies inside memory. -/
theorem codeAt_fits {s : State} {i : Instr} (h : CodeAt s i) : s.pc.toNat + i.arity < 256 := by
  have hlen : i.arity < (encode i).length := by rw [encode_length]; omega
  exact (State.memRead_ok (h i.arity _ (List.getElem?_eq_getElem hlen))).1

/-- Everything steps 1 to 3 of the cycle can do (40_fetch_decode_dispatch.md R71, R72, R73). -/
theorem fetchInstr_cases (s : State) :
    (∃ i, CodeAt s i ∧ s.fetchInstr = .ok i) ∨
    (256 ≤ s.pc.toNat ∧ s.fetchInstr = .error (.outOfBounds .memory s.pc.toNat)) ∨
    (s.pc.toNat < 256 ∧ lookupOpcode (s.mem.read s.pc.toNat) = none ∧
      s.fetchInstr = .error (.invalidOpcode (s.mem.read s.pc.toNat) s.pc.toNat)) ∨
    (∃ row, s.pc.toNat < 256 ∧ lookupOpcode (s.mem.read s.pc.toNat) = some row ∧ 256 ≤ s.pc.toNat + row.form.arity ∧
      s.fetchInstr = .error (.outOfBounds .memory 256)) := by
  unfold State.fetchInstr
  by_cases h0 : s.pc.toNat < 256
  · have r0 := s.memRead_of_lt _ h0
    simp only [r0, bind, Except.bind]
    cases hl : lookupOpcode (s.mem.read s.pc.toNat) with
    | none => exact .inr (.inr (.inl ⟨h0, rfl, rfl⟩))
    | some row =>
      have hm := lookupOpcode_makes hl
      cases hf : row.form with
      | f0 i =>
        rw [hf] at hm
        exact .inl ⟨i, (codeAt_f0 hm.2).mpr (by rw [r0, hm.1]), by simp [hf]⟩
      | f1 mk =>
        rw [hf] at hm
        by_cases h1 : s.pc.toNat + 1 < 256
        · have r1 := s.memRead_of_lt _ h1
          refine .inl ⟨_, (codeAt_f1 (hm (s.mem.read (s.pc.toNat + 1))).2).mpr ⟨by rw [r0, (hm _).1], r1⟩, ?_⟩
          simp [hf, r1]
        · refine .inr (.inr (.inr ⟨row, h0, rfl, by simp [hf, Form.arity]; omega, ?_⟩))
          simp only [hf, s.memRead_of_ge _ (Nat.le_of_not_lt h1)]
          have : s.pc.toNat + 1 = 256 := by omega
          rw [this]
      | f2 mk =>
        rw [hf] at hm
        by_cases h1 : s.pc.toNat + 1 < 256
        · have r1 := s.memRead_of_lt _ h1
          by_cases h2 : s.pc.toNat + 2 < 256
          · have r2 := s.memRead_of_lt _ h2
            refine .inl ⟨_, (codeAt_f2 (hm (s.mem.read (s.pc.toNat + 1)) (s.mem.read (s.pc.toNat + 2))).2).mpr
              ⟨by rw [r0, (hm _ _).1], r1, r2⟩, ?_⟩
            simp [hf, r1, r2]
          · refine .inr (.inr (.inr ⟨row, h0, rfl, by simp [hf, Form.arity]; omega, ?_⟩))
            simp only [hf, r1, s.memRead_of_ge _ (Nat.le_of_not_lt h2)]
            have : s.pc.toNat + 2 = 256 := by omega
            rw [this]
        · refine .inr (.inr (.inr ⟨row, h0, rfl, by simp [hf, Form.arity]; omega, ?_⟩))
          simp only [hf, s.memRead_of_ge _ (Nat.le_of_not_lt h1)]
          have : s.pc.toNat + 1 = 256 := by omega
          rw [this]
  · exact .inr (.inl ⟨Nat.le_of_not_lt h0, by simp [s.memRead_of_ge _ (Nat.le_of_not_lt h0), bind, Except.bind]⟩)

/-- The row found for an instruction's opcode byte has its arity. -/
theorem lookupOpcode_arity {i : Instr} {row : OpcodeRow} (h : lookupOpcode i.opcode = some row) :
    row.form.arity = i.arity := by
  cases i <;> · cases h; rfl

/-- The instruction whose bytes stand at the program counter is the one fetched. -/
theorem fetchInstr_of_codeAt {s : State} {i : Instr} (h : CodeAt s i) : s.fetchInstr = .ok i := by
  have hfit := codeAt_fits h
  obtain ⟨h0, -⟩ := (codeAt_iff s i).mp h
  have hread := (State.memRead_ok h0).2
  obtain ⟨row, hrow, hform⟩ := lookupOpcode_opcode i
  have hm := lookupOpcode_makes hrow
  unfold State.fetchInstr
  simp only [h0, bind, Except.bind, hrow]
  cases hf : row.form with
  | f0 j => rw [hf] at hform; simp only [hform]
  | f1 mk =>
    rw [hf] at hform hm
    obtain ⟨a, rfl⟩ := hform
    simp only [((codeAt_f1 (hm a).2).mp h).2]
  | f2 mk =>
    rw [hf] at hform hm
    obtain ⟨a, b, rfl⟩ := hform
    simp only [((codeAt_f2 (hm a b).2).mp h).2.1, ((codeAt_f2 (hm a b).2).mp h).2.2]

/-- An instruction is fetched exactly when its bytes stand at the program counter. -/
theorem fetchInstr_ok_iff (s : State) (i : Instr) : s.fetchInstr = .ok i ↔ CodeAt s i := by
  refine ⟨fun h => ?_, fetchInstr_of_codeAt⟩
  rcases fetchInstr_cases s with ⟨j, hj, he⟩ | ⟨-, he⟩ | ⟨-, -, he⟩ | ⟨_, -, -, -, he⟩ <;> rw [he] at h <;> cases h
  exact hj

/-- Two instructions cannot stand at one program counter. -/
theorem codeAt_unique {s : State} {i j : Instr} (hi : CodeAt s i) (hj : CodeAt s j) : i = j := by
  have := fetchInstr_of_codeAt hi
  rw [fetchInstr_of_codeAt hj] at this
  cases this
  rfl

/-- Moving past fetched code never overflows the 9-bit program counter (10_state.md R18). -/
theorem pc_past_code {s : State} {i : Instr} (h : CodeAt s i) :
    (s.pc + BitVec.ofNat 9 (1 + i.arity)).toNat = s.pc.toNat + (1 + i.arity) := by
  have hfit := codeAt_fits h
  simp only [BitVec.toNat_add, BitVec.toNat_ofNat]
  omega

end Sys2Proof.Machine
end

