-- ==== Sys2Proof/Laws/HostOps.lean ====
section
/-! SUPPORT. What each host operation answers, and what none but power-on, engine reset and a run can change. -/

namespace Sys2Proof.Machine

theorem replyRead_state (s : State) (r : Except Fault Byte) : (replyRead s r).2 = s := by cases r <;> rfl

theorem hostStep_readMemory_state (s : State) (a : Nat) : (hostStep (.readMemory a) s).2 = s := replyRead_state s _

theorem hostStep_readRegister_state (s : State) (i : Nat) : (hostStep (.readRegister i) s).2 = s := replyRead_state s _

theorem hostStep_writeMemory_of_lt (s : State) (a : Nat) (v : Byte) (h : a < 256) :
    hostStep (.writeMemory a v) s = (.done, { s with mem := s.mem.write a v }) := by
  simp [hostStep, State.memWrite, h, replyWrite]

theorem hostStep_writeMemory_of_ge (s : State) (a : Nat) (v : Byte) (h : 256 ≤ a) :
    hostStep (.writeMemory a v) s = (.fault (.outOfBounds .memory a), s) := by
  simp [hostStep, State.memWrite, Nat.not_lt.mpr h, replyWrite]

theorem hostStep_writeRegister_of_lt (s : State) (i : Nat) (v : Byte) (h : i < 8) :
    hostStep (.writeRegister i v) s = (.done, s.setReg i v h) := by
  simp [hostStep, s.writeReg_of_lt i v h, replyWrite]

theorem hostStep_writeRegister_of_ge (s : State) (i : Nat) (v : Byte) (h : 8 ≤ i) :
    hostStep (.writeRegister i v) s = (.fault (.outOfBounds .register i), s) := by
  simp [hostStep, s.writeReg_of_ge i v h, replyWrite]

theorem hostStep_loadProgram_of_le (s : State) (bytes : List Byte) (h : bytes.length ≤ 256) :
    hostStep (.loadProgram bytes) s = (.done, { s with mem := s.mem.writeBytes 0 bytes }) := by
  simp [hostStep, State.loadProgram, h, replyWrite]

theorem hostStep_loadProgram_of_gt (s : State) (bytes : List Byte) (h : 256 < bytes.length) :
    hostStep (.loadProgram bytes) s = (.fault (.programTooLarge bytes.length 256), s) := by
  simp [hostStep, State.loadProgram, Nat.not_le.mpr h, replyWrite]

/-- The accessors, the load and the snapshot write neither `pc`, `ENG` nor `OUT` (70_reset_and_hazards.md R156). -/
theorem hostStep_frame (op : HostOp) (s : State) (hp : op ≠ .powerOn) (hr : op ≠ .engineReset) (hb : ∀ b, op ≠ .run b) :
    (hostStep op s).2.pc = s.pc ∧ (hostStep op s).2.eng = s.eng ∧ (hostStep op s).2.out = s.out := by
  cases op with
  | powerOn => exact absurd rfl hp
  | engineReset => exact absurd rfl hr
  | run b => exact absurd rfl (hb b)
  | readMemory a => rw [hostStep_readMemory_state]; exact ⟨rfl, rfl, rfl⟩
  | readRegister i => rw [hostStep_readRegister_state]; exact ⟨rfl, rfl, rfl⟩
  | writeMemory a v =>
    by_cases h : a < 256
    · rw [hostStep_writeMemory_of_lt s a v h]; exact ⟨rfl, rfl, rfl⟩
    · rw [hostStep_writeMemory_of_ge s a v (Nat.le_of_not_lt h)]; exact ⟨rfl, rfl, rfl⟩
  | writeRegister i v =>
    by_cases h : i < 8
    · rw [hostStep_writeRegister_of_lt s i v h]; exact ⟨rfl, rfl, rfl⟩
    · rw [hostStep_writeRegister_of_ge s i v (Nat.le_of_not_lt h)]; exact ⟨rfl, rfl, rfl⟩
  | loadProgram bytes =>
    by_cases h : bytes.length ≤ 256
    · rw [hostStep_loadProgram_of_le s bytes h]; exact ⟨rfl, rfl, rfl⟩
    · rw [hostStep_loadProgram_of_gt s bytes (Nat.lt_of_not_le h)]; exact ⟨rfl, rfl, rfl⟩
  | snapshot => exact ⟨rfl, rfl, rfl⟩

end Sys2Proof.Machine
end

