-- ==== Sys2Proof/Laws/PerInstr.lean ====
section
/-! SUPPORT. The families of statements made per instruction: a Statement about an instruction as syntax, and one lemma per
constructor of Instr. -/

/-- The two high bits of the opcode byte are the operand count, and bit 4, which would set the program counter, is 0
(30_encoding.md R52, R53). -/
def Sys2Proof.Laws.OpcodeBits.Statement (i : Sys2Proof.Instr) : Prop :=
  (i.opcode.extractLsb' 6 2).toNat = i.arity ∧ i.opcode.getLsbD 4 = false

namespace Sys2Proof.Laws.OpcodeBits

/-- The statement of an instruction is one about its opcode byte and its operand count. -/
theorem of_bits {i : Instr} (op : Byte) (n : Nat) (ho : i.opcode = op) (ha : i.arity = n)
    (hn : (op.extractLsb' 6 2).toNat = n) (hc : op.getLsbD 4 = false) : Statement i := by
  subst ho ha
  exact ⟨hn, hc⟩

theorem hlt : Statement .hlt := of_bits opcHLT 0 rfl rfl (by decide) (by decide)
theorem ldi (a b : Byte) : Statement (.ldi a b) := of_bits opcLDI 2 rfl rfl (by decide) (by decide)
theorem prn (a : Byte) : Statement (.prn a) := of_bits opcPRN 1 rfl rfl (by decide) (by decide)
theorem add (a b : Byte) : Statement (.add a b) := of_bits opcADD 2 rfl rfl (by decide) (by decide)
theorem sub (a b : Byte) : Statement (.sub a b) := of_bits opcSUB 2 rfl rfl (by decide) (by decide)
theorem mul (a b : Byte) : Statement (.mul a b) := of_bits opcMUL 2 rfl rfl (by decide) (by decide)
theorem div (a b : Byte) : Statement (.div a b) := of_bits opcDIV 2 rfl rfl (by decide) (by decide)
theorem and (a b : Byte) : Statement (.and a b) := of_bits opcAND 2 rfl rfl (by decide) (by decide)
theorem or (a b : Byte) : Statement (.or a b) := of_bits opcOR 2 rfl rfl (by decide) (by decide)
theorem xor (a b : Byte) : Statement (.xor a b) := of_bits opcXOR 2 rfl rfl (by decide) (by decide)
theorem shl (a b : Byte) : Statement (.shl a b) := of_bits opcSHL 2 rfl rfl (by decide) (by decide)
theorem shr (a b : Byte) : Statement (.shr a b) := of_bits opcSHR 2 rfl rfl (by decide) (by decide)

end Sys2Proof.Laws.OpcodeBits
end

