-- ==== Sys2Proof/Laws/Step.lean ====
section
/-! SUPPORT. What a step can do, once: nothing in HALTED, a fetch fault, or the execution of the instruction that stands at
the program counter. -/

namespace Sys2Proof.Machine

open Sys2Proof.Safety

theorem step_of_halted {s : State} (h : s.eng = .halted) : step s = .next s := by
  simp [step, cycle, h]

theorem step_of_codeAt {s : State} {i : Instr} (hr : s.eng = .running) (h : CodeAt s i) : step s = exec i s := by
  simp [step, cycle, hr, fetchInstr_of_codeAt h]

/-- Everything a step can do. -/
theorem step_cases (s : State) :
    (s.eng = .halted ∧ step s = .next s) ∨
    (s.eng = .running ∧ ∃ i, CodeAt s i ∧ step s = exec i s) ∨
    (s.eng = .running ∧ 256 ≤ s.pc.toNat ∧ step s = .fault (.outOfBounds .memory s.pc.toNat)) ∨
    (s.eng = .running ∧ s.pc.toNat < 256 ∧ lookupOpcode (s.mem.read s.pc.toNat) = none ∧
      step s = .fault (.invalidOpcode (s.mem.read s.pc.toNat) s.pc.toNat)) ∨
    (s.eng = .running ∧ ∃ row, s.pc.toNat < 256 ∧ lookupOpcode (s.mem.read s.pc.toNat) = some row ∧
      256 ≤ s.pc.toNat + row.form.arity ∧ step s = .fault (.outOfBounds .memory 256)) := by
  cases he : s.eng with
  | halted => exact .inl ⟨rfl, step_of_halted he⟩
  | running =>
    refine .inr ?_
    rcases fetchInstr_cases s with ⟨i, hi, -⟩ | ⟨h, hf⟩ | ⟨h, hl, hf⟩ | ⟨row, h, hl, ha, hf⟩
    · exact .inl ⟨rfl, i, hi, step_of_codeAt he hi⟩
    · exact .inr (.inl ⟨rfl, h, by simp [step, cycle, he, hf, takeFault]⟩)
    · exact .inr (.inr (.inl ⟨rfl, h, hl, by simp [step, cycle, he, hf, takeFault]⟩))
    · exact .inr (.inr (.inr ⟨rfl, row, h, hl, ha, by simp [step, cycle, he, hf, takeFault]⟩))

/-- A step that completes in RUNNING has run the instruction that stands at the program counter. -/
theorem step_next {s t : State} (hr : s.eng = .running) (h : step s = .next t) : ∃ i, CodeAt s i ∧ exec i s = .next t := by
  rcases step_cases s with ⟨hh, -⟩ | ⟨-, i, hi, he⟩ | ⟨-, -, he⟩ | ⟨-, -, -, he⟩ | ⟨-, _, -, -, -, he⟩
  · rw [hr] at hh; cases hh
  · exact ⟨i, hi, he ▸ h⟩
  all_goals rw [he] at h; cases h

/-- A step that completes in RUNNING moves `pc` up, to 256 at most. -/
theorem step_pc {s t : State} (hr : s.eng = .running) (h : step s = .next t) :
    s.pc.toNat < t.pc.toNat ∧ t.pc.toNat ≤ 256 := by
  obtain ⟨i, hi, he⟩ := step_next hr h
  have hfit := codeAt_fits hi
  rw [(exec_next he).2.2.2.2, pc_past_code hi]
  omega

end Sys2Proof.Machine
end

