-- ==== Sys2Proof/Laws/Run.lean ====
section
/-! SUPPORT. The run loop, unrolled once, and the induction every claim about a run goes through. -/

namespace Sys2Proof.Machine

@[simp] theorem runLoop_zero (s : State) : runLoop 0 s = (.suspended, s) := rfl

theorem runLoop_of_fault {s : State} {f : Fault} (n : Nat) (h : step s = .fault f) :
    runLoop (n + 1) s = (.faulted f, s) := by
  simp [runLoop, h]

theorem runLoop_of_halting {s t : State} (n : Nat) (h : step s = .next t) (ht : t.eng = .halted) :
    runLoop (n + 1) s = (.halted, t) := by
  simp [runLoop, h, ht]

theorem runLoop_of_running {s t : State} (n : Nat) (h : step s = .next t) (ht : t.eng = .running) :
    runLoop (n + 1) s = runLoop n t := by
  simp [runLoop, h, ht]

theorem run_of_halted {s : State} (b : Option Nat) (h : s.eng = .halted) : run b s = (.alreadyHalted, s) := by
  simp [run, h]

theorem run_of_running {s : State} (b : Option Nat) (h : s.eng = .running) :
    run b s = runLoop (b.getD enoughCycles) s := by
  simp [run, h]

/-- A relation between the state before and the state after that holds of no cycle at all and is kept by every cycle holds
of every run. -/
theorem runLoop_induction {R : State → State → Prop} (refl : ∀ s, R s s)
    (trans : ∀ s t u, s.eng = .running → step s = .next t → R t u → R s u) (n : Nat) (s : State)
    (hr : s.eng = .running) : R s (runLoop n s).2 := by
  induction n generalizing s with
  | zero => exact refl s
  | succ n ih =>
    cases h : step s with
    | fault f => rw [runLoop_of_fault n h]; exact refl s
    | refused r => simp only [runLoop, h]; exact refl s
    | next t =>
      cases ht : t.eng with
      | halted => rw [runLoop_of_halting n h ht]; exact trans s t t hr h (refl t)
      | running => rw [runLoop_of_running n h ht]; exact trans s t _ hr h (ih t ht)

/-- The same for one invocation of the run loop, in either engine state. -/
theorem run_induction {R : State → State → Prop} (refl : ∀ s, R s s)
    (trans : ∀ s t u, s.eng = .running → step s = .next t → R t u → R s u) (b : Option Nat) (s : State) :
    R s (run b s).2 := by
  cases h : s.eng with
  | halted => rw [run_of_halted b h]; exact refl s
  | running => rw [run_of_running b h]; exact runLoop_induction refl trans _ s h

end Sys2Proof.Machine
end

