-- ==== Sys2Proof/Machine/Flags.lean ====
section
/-! DEFINITION. This machine has no flags register, no condition codes and no status register (10_state.md R24), and no
ALU operation records carry, overflow, zero or sign anywhere (42_alu.md R101, R102, R114). So this file defines nothing. -/
end

