-- ==== Sys2Proof/Tests/Slice0.lean ====
section
/-! SUPPORT. Tests of the model against the spec's own tables and vectors, and a witness for the hypotheses of each statement.
The expected results come from spec/: T<n>, S<n> are the vectors of 95_test_vectors.md, R<n> a rule's example. -/

namespace Sys2Proof.Tests

open Sys2Proof.Machine Sys2Proof.Safety

/-- The power-on state with bytes at `pc`, and the values of registers 0 and 1. -/
def machineAt (pc : PcWord) (bytes : List Byte) (r0 r1 : Byte) : State :=
  { State.reset with
    mem := Memory.writeBytes [] pc.toNat bytes
    regs := (State.reset.regs.set 0 r0).set 1 r1
    pc := pc }

/-- Registers 0 and 1 and `pc` after one completed step. -/
def afterStep (s : State) : Option (Byte × Byte × PcWord) :=
  (nextState? (step s)).map (fun t => (t.regs[0], t.regs[1], t.pc))

/-! ### Decoding (30_encoding.md R55, the bytes written out) -/

theorem test_decode_hlt : decode [0b00000001, 0x55] = .ok (.hlt, [0x55]) := by rfl
theorem test_decode_ldi : decode [0b10000010, 0b00000111, 0b11111111] = .ok (.ldi 7 255, []) := by rfl
theorem test_decode_prn : decode [0b01000111, 0b00000011, 0x55] = .ok (.prn 3, [0x55]) := by rfl
theorem test_decode_add : decode [0b10100000, 0b00000001, 0b00000010] = .ok (.add 1 2, []) := by rfl
theorem test_decode_sub : decode [0b10100001, 0b00000001, 0b00000010] = .ok (.sub 1 2, []) := by rfl
theorem test_decode_mul : decode [0b10100010, 0b00000001, 0b00000010] = .ok (.mul 1 2, []) := by rfl
theorem test_decode_div : decode [0b10100011, 0b00000001, 0b00000010] = .ok (.div 1 2, []) := by rfl
theorem test_decode_and : decode [0b10101000, 0b00000001, 0b00000010] = .ok (.and 1 2, []) := by rfl
theorem test_decode_or : decode [0b10101010, 0b00000001, 0b00000010] = .ok (.or 1 2, []) := by rfl
theorem test_decode_xor : decode [0b10101011, 0b00000001, 0b00000010] = .ok (.xor 1 2, []) := by rfl
theorem test_decode_shl : decode [0b10101100, 0b00000001, 0b00000010] = .ok (.shl 1 2, []) := by rfl
theorem test_decode_shr : decode [0b10101101, 0b00000001, 0b00000010] = .ok (.shr 1 2, []) := by rfl

/-- The decoder rejects by name: no byte, a byte outside the table (T2, T11, T12), and operands that are not there. -/
theorem test_decode_rejects :
    decode [] = .error .noOpcode ∧ decode [0x00] = .error (.illegalOpcode 0x00) ∧
    decode [0xA4, 0, 1] = .error (.illegalOpcode 0xA4) ∧ decode [0xC0, 0, 1] = .error (.illegalOpcode 0xC0) ∧
    decode [0x47] = .error (.missingOperand 1) ∧ decode [0x82] = .error (.missingOperand 1) ∧
    decode [0x82, 0] = .error (.missingOperand 2) := by
  refine ⟨rfl, rfl, rfl, rfl, rfl, rfl, rfl⟩

/-- No two rows of the opcode table share a byte. -/
theorem test_opcodes_distinct : (opcodeTable.map (fun row => row.opcode)).Nodup := by decide

/-- S5's image decodes to its five instructions, and the decoder stops at the zero byte above it. -/
theorem test_decode_image :
    decodeImage [0x82, 0, 3, 0x82, 1, 4, 0xA2, 0, 1, 0x47, 0, 1, 0x00] =
      ([.ldi 0 3, .ldi 1 4, .mul 0 1, .prn 0, .hlt], [0x00]) := by rfl

/-- Table words: bit 0 is the least significant bit of the first byte; bits above `nbits` are zero. -/
theorem test_decodeTableWord :
    decodeTableWord 24 0x050082 = some (.ldi 0 5) ∧ decodeTableWord 8 0x01 = some .hlt ∧
    decodeTableWord 8 0xA0 = some (.add 0 0) ∧ decodeTableWord 16 0x0347 = some (.prn 3) ∧ decodeTableWord 8 0x00 = none := by
  refine ⟨rfl, rfl, rfl, rfl, rfl⟩

/-! ### Well-formedness: an ill-formed term for each check, refused -/

theorem test_wf_ldi : (Instr.ldi 8 0).wf = false ∧ (Instr.ldi 7 255).wf = true := by decide
theorem test_wf_prn : (Instr.prn 8).wf = false ∧ (Instr.prn 7).wf = true := by decide
theorem test_wf_alu (op : AluOp) :
    (aluInstr op 8 0).wf = false ∧ (aluInstr op 0 8).wf = false ∧ (aluInstr op 7 7).wf = true := by
  cases op <;> decide

/-! ### The cycle (T1 to T10) -/

theorem test_hlt_at_255 : (nextState? (step (machineAt 255 [0x01] 0 0))).map (fun t => (t.pc, t.eng)) = some (256, .halted) := by
  decide
theorem test_prn_at_254 :
    (nextState? (step (machineAt 254 [0x47, 0] 5 0))).map (fun t => (t.pc, t.out)) = some (256, [5]) := by decide
theorem test_prn_at_255 : fault? (step (machineAt 255 [0x47] 0 0)) = some (.outOfBounds .memory 256) := by decide
theorem test_ldi_at_254 : fault? (step (machineAt 254 [0x82, 200] 0 0)) = some (.outOfBounds .memory 256) := by decide
theorem test_illegal_at_255 : fault? (step (machineAt 255 [0x02] 0 0)) = some (.invalidOpcode 0x02 255) := by decide
theorem test_fetch_at_256 : fault? (step (machineAt 256 [] 0 0)) = some (.outOfBounds .memory 256) := by decide
theorem test_halted_no_op :
    nextState? (step { machineAt 256 [] 0 0 with eng := .halted }) = some { machineAt 256 [] 0 0 with eng := .halted } := by
  decide

/-! ### One step of each instruction (T20 to T88 and the rules' examples) -/

theorem test_ldi : (nextState? (step (machineAt 0 [0x82, 7, 0xFF] 0 0))).map (fun t => (t.regs[7], t.pc)) = some (255, 3) := by
  decide
theorem test_ldi_bad_register : fault? (step (machineAt 0 [0x82, 8, 1] 0 0)) = some (.outOfBounds .register 8) := by decide
theorem test_prn_bad_register : fault? (step (machineAt 0 [0x47, 8] 0 0)) = some (.outOfBounds .register 8) := by decide
theorem test_add : afterStep (machineAt 0 [0xA0, 0, 1] 200 100) = some (44, 100, 3) := by decide
theorem test_add_same : afterStep (machineAt 0 [0xA0, 0, 0] 128 9) = some (0, 9, 3) := by decide
theorem test_sub : afterStep (machineAt 0 [0xA1, 0, 1] 5 10) = some (251, 10, 3) := by decide
theorem test_sub_wrap : afterStep (machineAt 0 [0xA1, 0, 1] 0 255) = some (1, 255, 3) := by decide
theorem test_mul : afterStep (machineAt 0 [0xA2, 0, 1] 200 200) = some (64, 200, 3) := by decide
theorem test_mul_order_of_checks : fault? (step (machineAt 0 [0xA2, 9, 10] 0 0)) = some (.outOfBounds .register 9) := by decide
theorem test_div : afterStep (machineAt 0 [0xA3, 0, 1] 200 7) = some (28, 7, 3) := by decide
theorem test_div_zero : fault? (step (machineAt 0 [0xA3, 0, 1] 9 0)) = some .divideByZero := by decide
theorem test_and : afterStep (machineAt 0 [0xA8, 0, 1] 0xF0 0x3C) = some (0x30, 0x3C, 3) := by decide
theorem test_or : afterStep (machineAt 0 [0xAA, 0, 1] 0xF0 0x3C) = some (0xFC, 0x3C, 3) := by decide
theorem test_xor : afterStep (machineAt 0 [0xAB, 0, 1] 0xF0 0x3C) = some (0xCC, 0x3C, 3) := by decide
theorem test_shl : afterStep (machineAt 0 [0xAC, 0, 1] 0x81 1) = some (0x02, 1, 3) := by decide
theorem test_shl_255 : afterStep (machineAt 0 [0xAC, 0, 1] 0xFF 255) = some (0, 255, 3) := by decide
theorem test_shr : afterStep (machineAt 0 [0xAD, 0, 1] 0x81 1) = some (0x40, 1, 3) := by decide
theorem test_shr_8 : afterStep (machineAt 0 [0xAD, 0, 1] 0x80 8) = some (0, 8, 3) := by decide

/-! ### Host operations, output, notation -/

/-- T95 and T97: a too long image changes nothing; a shorter second image leaves the old tail. -/
theorem test_load_keeps_the_tail :
    (hostStep (.loadProgram [0x01]) (hostStep (.loadProgram [0x82, 0, 5, 0x47, 0, 1]) State.reset).2).2.mem =
      [(0, 0x01), (2, 5), (3, 0x47), (5, 1)] := by decide
/-- T100, T101: the snapshot near the top of memory. -/
theorem test_snapshot :
    (machineAt 256 [] 0 0).snapshot.bytes = [] ∧ (machineAt 254 [0x82, 7] 0 0).snapshot.bytes = [0x82, 7] := by decide
/-- P1's text, its first three lines. -/
theorem test_text : outText Config.defaultLineTerm [44, 6, 252] = ['4', '4', '\n', '6', '\n', '2', '5', '2', '\n'] := by decide
/-- R61's notation. -/
theorem test_statement : (Instr.ldi 0 5).statement = "LDI R0,5" ∧ (Instr.mul 0 1).statement = "MUL R0,R1" := by
  decide
/-- A word placed at reset is the instruction the very next step runs (log 16). -/
theorem test_withFetchWord :
    (nextState? (step (State.reset.withFetchWord 24 0x050082))).map (fun t => (t.regs[0], t.pc)) = some (5, 3) := by decide

/-! ### Witnesses: a state and operands that meet each statement's hypotheses, clause by clause -/

theorem witness_ImageDecodesToItsInstructions : ∀ b : Byte, [(0x00 : Byte)].head? = some b → illegalOpcode b = true := by
  intro b h
  cases h
  decide
theorem witness_OpcodeHighBitsAreTheArity :
    (lookupOpcode 0x82).isSome = true ∧ (0xC0 : Byte).extractLsb' 6 2 = 0b11 ∧ (machineAt 255 [0xC0] 0 0).eng = .running ∧
    (machineAt 255 [0xC0] 0 0).pc.toNat < 256 ∧ (lookupOpcode ((machineAt 255 [0xC0] 0 0).mem.read 255)).isNone = true := by
  decide
theorem witness_InvalidOpcodeExactlyWhen :
    (∀ i : Instr, i.opcode ≠ 0x02) ∧ (machineAt 255 [0x02] 0 0).eng = .running ∧ (machineAt 255 [0x02] 0 0).mem.read 255 = 0x02 ∧
    ∃ t, State.reset.loadProgram [0x02] = .ok t := by
  refine ⟨fun i => ?_, rfl, rfl, _, rfl⟩
  cases i <;> simp [Instr.opcode] <;> decide
theorem witness_IllegalOpcodesFault :
    (machineAt 255 [0x02] 0 0).eng = .running ∧ (machineAt 255 [0x02] 0 0).mem.read 255 = 0x02 ∧
    ([0x00, 0x02, 0x46, 0x48, 0x81, 0x83, 0x9F, 0xA4, 0xA7, 0xA9, 0xAE, 0xFF] : List Byte).all illegalOpcode = true ∧
    ([0x01, 0x47, 0x82, 0xA0, 0xA3, 0xA8, 0xAA, 0xAD] : List Byte).all (fun op => !illegalOpcode op) = true := by decide

theorem codeAt_ldi_253 : CodeAt (machineAt 253 [0x82, 7, 0xFF] 0 0) (.ldi 7 255) := (fetchInstr_ok_iff _ _).mp (by decide)
theorem codeAt_hlt_255 : CodeAt (machineAt 255 [0x01] 0 0) .hlt := (fetchInstr_ok_iff _ _).mp (by decide)
theorem codeAt_prn_254 : CodeAt (machineAt 254 [0x47, 0] 5 0) (.prn 0) := (fetchInstr_ok_iff _ _).mp (by decide)
theorem codeAt_div : CodeAt (machineAt 0 [0xA3, 0, 1] 9 0) (.div 0 1) := (fetchInstr_ok_iff _ _).mp (by decide)
theorem codeAt_mul_7_8 : CodeAt (machineAt 0 [0xA2, 7, 8] 9 0) (.mul 7 8) := (fetchInstr_ok_iff _ _).mp (by decide)
theorem codeAt_mul_8_8 : CodeAt (machineAt 0 [0xA2, 8, 8] 9 0) (.mul 8 8) := (fetchInstr_ok_iff _ _).mp (by decide)

theorem witness_EngineResetKeepsMemoryRegistersAndOutput :
    CodeAt (State.engineReset { machineAt 0 [0xA3, 0, 1] 9 0 with pc := 3, eng := .halted }) (.div 0 1) :=
  (fetchInstr_ok_iff _ _).mp (by decide)
theorem witness_StepRunsTheDecodedInstruction :
    (machineAt 253 [0x82, 7, 0xFF] 0 0).eng = .running ∧
    decode (machineAt 253 [0x82, 7, 0xFF] 0 0).codeBytes = .ok (.ldi 7 255, []) ∧
    CodeAt (machineAt 253 [0x82, 7, 0xFF] 0 0) (.ldi 7 255) := ⟨rfl, rfl, codeAt_ldi_253⟩
theorem witness_HaltedMachineDoesNothing : ({ State.reset with eng := .halted } : State).eng = .halted := rfl
theorem witness_FetchOutsideMemoryFaults :
    (machineAt 256 [] 0 0).eng = .running ∧ 256 ≤ (machineAt 256 [] 0 0).pc.toNat ∧
    (machineAt 255 [0x02] 0 0).eng = .running ∧ (machineAt 255 [0x02] 0 0).pc.toNat < 256 ∧
    (lookupOpcode ((machineAt 255 [0x02] 0 0).mem.read 255)).isNone = true ∧ CodeAt (machineAt 255 [0x01] 0 0) .hlt :=
  ⟨rfl, by decide, rfl, by decide, by decide, codeAt_hlt_255⟩
/-- LDI at 253, 254, 255, PRN at 254, 255 and HLT at 255: each meets the hypotheses, and the two clauses part them. -/
theorem witness_OperandsPastTheEndFault :
    ([(253, 0x82, 2), (254, 0x82, 2), (255, 0x82, 2), (254, 0x47, 1), (255, 0x47, 1), (255, 0x01, 0)] :
      List (PcWord × Byte × Nat)).all (fun c =>
        decide ((machineAt c.1 [c.2.1] 0 0).eng = .running) && decide ((machineAt c.1 [c.2.1] 0 0).pc.toNat < 256) &&
        decide ((lookupOpcode ((machineAt c.1 [c.2.1] 0 0).mem.read c.1.toNat)).map (fun row => row.form.arity) =
          some c.2.2)) = true := by decide
theorem witness_CompletedCycleAdvancesPc :
    (machineAt 255 [0x01] 0 0).eng = .running ∧ ∃ t, step (machineAt 255 [0x01] 0 0) = .next t := ⟨rfl, _, rfl⟩

theorem inv_machineAt_255 : StateInv (machineAt 255 [0x01] 0 0) := ⟨by decide, by decide, by decide⟩

theorem witness_StepKeepsTheInvariant :
    StateInv (machineAt 255 [0x01] 0 0) ∧ ∃ t, step (machineAt 255 [0x01] 0 0) = .next t := ⟨inv_machineAt_255, _, rfl⟩
theorem witness_HostOperationsKeepTheInvariant : StateInv (machineAt 255 [0x01] 0 0) := inv_machineAt_255
theorem witness_OnlyTheHostWritesMemory :
    (∃ t, step (machineAt 254 [0x47, 0] 5 0) = .next t) ∧ HostOp.run none ≠ .powerOn ∧
    (∀ a v, HostOp.run none ≠ .writeMemory a v) ∧ ∀ bytes, HostOp.run none ≠ .loadProgram bytes := by
  refine ⟨⟨_, rfl⟩, by simp⟩
theorem witness_OutputIsAppendOnly :
    (machineAt 254 [0x47, 0] 5 0).eng = .running ∧ (∃ t, step (machineAt 254 [0x47, 0] 5 0) = .next t) ∧
    CodeAt (machineAt 254 [0x47, 0] 5 0) (.prn 0) ∧ (machineAt 255 [0x01] 0 0).eng = .running ∧
    (∃ t, step (machineAt 255 [0x01] 0 0) = .next t) ∧ (∀ a, ¬ CodeAt (machineAt 255 [0x01] 0 0) (.prn a)) ∧
    HostOp.engineReset ≠ .powerOn ∧ ∀ b, HostOp.engineReset ≠ .run b :=
  ⟨rfl, ⟨_, rfl⟩, codeAt_prn_254, rfl, ⟨_, rfl⟩, fun _ h => Instr.noConfusion (codeAt_unique h codeAt_hlt_255), by simp, by simp⟩
theorem witness_OnlyThreeThingsWritePc :
    (machineAt 255 [0x01] 0 0).eng = .running ∧ (∃ t, step (machineAt 255 [0x01] 0 0) = .next t) ∧
    HostOp.snapshot ≠ .powerOn ∧ HostOp.snapshot ≠ .engineReset ∧ ∀ b, HostOp.snapshot ≠ .run b := by
  refine ⟨rfl, ⟨_, rfl⟩, by simp⟩
theorem witness_EngineStateTransitions :
    (machineAt 255 [0x01] 0 0).eng = .running ∧ (∃ t, step (machineAt 255 [0x01] 0 0) = .next t ∧ t.eng = .halted) ∧
    ({ State.reset with eng := .halted } : State).eng = .halted ∧
    (hostStep .engineReset { State.reset with eng := .halted }).2.eng = .running ∧
    HostOp.snapshot ≠ .powerOn ∧ HostOp.snapshot ≠ .engineReset ∧ ∀ b, HostOp.snapshot ≠ .run b := by
  refine ⟨rfl, ⟨_, rfl, rfl⟩, rfl, rfl, by simp⟩
/-- A register that ADD does not read, and LDI's destination, which it does not read either. -/
theorem witness_InstructionsReadAndWriteTheirRegisters :
    (∃ s', State.reset.writeReg 7 9 = .ok s') ∧ (∀ r ∈ regsRead (.add 0 1), r.toNat ≠ 7) ∧
    (∃ t, exec (.add 0 1) State.reset = .next t) ∧ (∀ r ∈ regsRead (.ldi 7 1), r.toNat ≠ 7) ∧
    (∃ t, exec (.ldi 7 1) State.reset = .next t) ∧ 7 < 8 ∧ 6 ≠ 7 :=
  ⟨⟨_, rfl⟩, by decide, ⟨_, rfl⟩, by decide, ⟨_, rfl⟩, by decide⟩
theorem witness_InstructionFrame : ∃ t, exec (.mul 0 0) State.reset = .next t := ⟨_, rfl⟩
theorem witness_HltHaltsTheEngine : (machineAt 255 [0x01] 0 0).eng = .running ∧ CodeAt (machineAt 255 [0x01] 0 0) .hlt :=
  ⟨rfl, codeAt_hlt_255⟩
theorem witness_LdiLoadsItsImmediate :
    (7 : Byte).toNat < 8 ∧ 8 ≤ (8 : Byte).toNat ∧ (machineAt 253 [0x82, 7, 0xFF] 0 0).eng = .running ∧
    CodeAt (machineAt 253 [0x82, 7, 0xFF] 0 0) (.ldi 7 255) ∧ RunsOffTheEnd (machineAt 254 [0x82, 200] 0 0) (.ldi 200 0) ∧
    RunsOffTheEnd (machineAt 255 [0x82] 0 0) (.ldi 0 0) ∧ (machineAt 256 [] 0 0).pc = 256 :=
  ⟨by decide, by decide, rfl, codeAt_ldi_253, ⟨by decide, by decide, by decide⟩, ⟨by decide, by decide, by decide⟩, rfl⟩
theorem witness_PrnEmitsTheRegister :
    (machineAt 254 [0x47, 0] 5 0).readReg 0 = .ok 5 ∧ (7 : Byte).toNat < 8 ∧ 8 ≤ (8 : Byte).toNat ∧
    (machineAt 254 [0x47, 0] 5 0).eng = .running ∧ CodeAt (machineAt 254 [0x47, 0] 5 0) (.prn 0) ∧
    RunsOffTheEnd (machineAt 255 [0x47] 0 0) (.prn 0) :=
  ⟨rfl, by decide, by decide, rfl, codeAt_prn_254, ⟨by decide, by decide, by decide⟩⟩
/-- DIV with a divisor 0 (and, by the other operand order, not 0), and MUL with either index out of range. -/
theorem witness_AluInstructionStep :
    (machineAt 0 [0xA3, 0, 1] 9 0).eng = .running ∧ CodeAt (machineAt 0 [0xA3, 0, 1] 9 0) (aluInstr .div 0 1) ∧
    (machineAt 0 [0xA3, 0, 1] 9 0).readReg 0 = .ok 9 ∧ (machineAt 0 [0xA3, 0, 1] 9 0).readReg 1 = .ok 0 ∧
    CodeAt (machineAt 0 [0xA2, 7, 8] 9 0) (aluInstr .mul 7 8) ∧ CodeAt (machineAt 0 [0xA2, 8, 8] 9 0) (aluInstr .mul 8 8) ∧
    AluOp.mul ≠ .div := ⟨rfl, codeAt_div, rfl, rfl, codeAt_mul_7_8, codeAt_mul_8_8, by decide⟩

/-- Registers 0 and 7 can be read. -/
theorem operands_readable : (machineAt 0 [] 200 100).readReg (0 : Byte).toNat = .ok 200 ∧
    (machineAt 0 [] 200 100).readReg (1 : Byte).toNat = .ok 100 ∧ (machineAt 0 [] 200 100).readReg (7 : Byte).toNat = .ok 0 :=
  ⟨rfl, rfl, rfl⟩
theorem witness_AddWrapsModulo256 : (machineAt 0 [] 200 100).readReg (0 : Byte).toNat = .ok 200 ∧
    (machineAt 0 [] 200 100).readReg (1 : Byte).toNat = .ok 100 := ⟨operands_readable.1, operands_readable.2.1⟩
theorem witness_SubWrapsModulo256 : (machineAt 0 [] 5 10).readReg (0 : Byte).toNat = .ok 5 ∧
    (machineAt 0 [] 5 10).readReg (1 : Byte).toNat = .ok 10 := ⟨rfl, rfl⟩
theorem witness_MulKeepsTheLowByte :
    (machineAt 0 [0xA2, 7, 8] 9 0).readReg (7 : Byte).toNat = .ok 0 ∧ (7 : Byte).toNat < 8 ∧ 8 ≤ (8 : Byte).toNat ∧
    (machineAt 0 [0xA2, 7, 8] 9 0).eng = .running ∧ CodeAt (machineAt 0 [0xA2, 7, 8] 9 0) (.mul 7 8) ∧
    RunsOffTheEnd (machineAt 254 [0xA2, 9] 0 0) (.mul 9 9) :=
  ⟨rfl, by decide, by decide, rfl, codeAt_mul_7_8, ⟨by decide, by decide, by decide⟩⟩
/-- A divisor that is not 0 (register 1) and one that is (register 7). -/
theorem witness_DivIsFlooredAndFaultsOnZero : (machineAt 0 [] 200 100).readReg (0 : Byte).toNat = .ok 200 ∧
    (machineAt 0 [] 200 100).readReg (1 : Byte).toNat = .ok 100 ∧ (100 : Byte) ≠ 0 ∧
    (machineAt 0 [] 200 100).readReg (7 : Byte).toNat = .ok 0 := ⟨rfl, rfl, by decide, rfl⟩
theorem witness_LogicalInstructionsAreBitwise : (machineAt 0 [] 0xF0 0x3C).readReg (0 : Byte).toNat = .ok 0xF0 ∧
    (machineAt 0 [] 0xF0 0x3C).readReg (1 : Byte).toNat = .ok 0x3C := ⟨rfl, rfl⟩
/-- A count of 7 and a count of 8. -/
theorem witness_ShiftsUseTheWholeCount : (machineAt 0 [] 7 8).readReg (0 : Byte).toNat = .ok 7 ∧
    (machineAt 0 [] 7 8).readReg (1 : Byte).toNat = .ok 8 ∧ 8 ≤ (8 : Byte).toNat ∧ ¬ 8 ≤ (7 : Byte).toNat :=
  ⟨rfl, rfl, by decide, by decide⟩
theorem witness_AluLaws : alu .add 255 1 = .ok 0 ∧ (7 : Byte).toNat < 8 ∧ 8 ≤ (8 : Byte).toNat ∧
    alu .div 9 0 = .error .divideByZero := by decide
theorem witness_UnsupportedOperationIsUnreachable :
    "NOT" ∉ ["ADD", "SUB", "MUL", "DIV", "AND", "OR", "XOR", "SHL", "SHR"] := by decide
theorem witness_RegisterIndexOutOfRangeFaults :
    (∃ r ∈ (Instr.add 7 8).regOperands, 8 ≤ r.toNat) ∧ (∃ r ∈ (Instr.ldi 255 0).regOperands, 8 ≤ r.toNat) ∧ 8 ≤ (8 : Byte).toNat ∧
    (7 : Byte).toNat < 8 := by decide
/-- The invariant, each of the three ways, and the boundaries of the two index ranges. -/
theorem witness_OutOfBoundsArisesInThreeWays :
    StateInv (machineAt 255 [0x01] 0 0) ∧ (machineAt 256 [] 0 0).pc.toNat = 256 ∧
    RunsOffTheEnd (machineAt 255 [0x47] 0 0) (.prn 0) ∧ CodeAt (machineAt 0 [0xA2, 7, 8] 9 0) (.mul 7 8) ∧
    256 ≤ 256 ∧ 255 < 256 ∧ 8 ≤ 8 ∧ 7 < 8 :=
  ⟨inv_machineAt_255, rfl, ⟨by decide, by decide, by decide⟩, codeAt_mul_7_8, by decide⟩
theorem witness_DivideByZeroExactlyWhen :
    (machineAt 0 [0xA3, 0, 1] 9 0).eng = .running ∧ CodeAt (machineAt 0 [0xA3, 0, 1] 9 0) (.div 0 1) ∧ (0 : Byte).toNat < 8 ∧
    (machineAt 0 [0xA3, 0, 1] 9 0).readReg (1 : Byte).toNat = .ok 0 := ⟨rfl, codeAt_div, by decide, rfl⟩
theorem witness_MemoryReadAfterWrite : 255 < 256 ∧ 254 ≠ 255 := by decide
/-- LDI at 253 with each of its three bytes missing; an LDI byte written at 254; an illegal byte written at 255. -/
theorem witness_FetchSeesTheHostsWrite :
    (∀ k v, (encode (.ldi 7 255))[k]? = some v →
      (∀ j w, j ≠ k → (encode (.ldi 7 255))[j]? = some w →
        (machineAt 253 [0x82, 7, 0xFF] 0 0).memRead ((machineAt 253 [0x82, 7, 0xFF] 0 0).pc.toNat + j) = .ok w) ∧
      ∃ t, hostStep (.writeMemory ((machineAt 253 [0x82, 7, 0xFF] 0 0).pc.toNat + k) v) (machineAt 253 [0x82, 7, 0xFF] 0 0) =
        (.done, t)) ∧
    (∃ t, hostStep (.writeMemory (machineAt 254 [] 0 0).pc.toNat 0x82) (machineAt 254 [] 0 0) = (.done, t)) ∧
    (Instr.ldi 0 0).opcode = 0x82 ∧ 256 ≤ (machineAt 254 [] 0 0).pc.toNat + (Instr.ldi 0 0).arity ∧
    (∃ t, hostStep (.writeMemory (machineAt 255 [] 0 0).pc.toNat 0x02) (machineAt 255 [] 0 0) = (.done, t)) ∧
    (lookupOpcode 0x02).isNone = true := by
  refine ⟨fun k v hk => ⟨fun j w _ hw => codeAt_ldi_253 j w hw, ?_⟩, ⟨_, rfl⟩, rfl, by decide, ⟨_, rfl⟩, by decide⟩
  match k, hk with
  | 0, _ => exact ⟨_, rfl⟩
  | 1, _ => exact ⟨_, rfl⟩
  | 2, _ => exact ⟨_, rfl⟩
theorem witness_MemoryReadIsChecked : 256 ≤ 256 ∧ 255 < 256 := by decide
theorem witness_RegisterReadIsChecked : 8 ≤ 8 ∧ 7 < 8 := by decide
theorem witness_LoadProgramPlacesTheImage :
    (List.replicate 256 (1 : Byte)).length ≤ 256 ∧ 256 < (List.replicate 257 (1 : Byte)).length := by
  rw [List.length_replicate, List.length_replicate]
  decide
theorem witness_LoadProgramChangesNothingElse :
    (∃ t, State.reset.loadProgram [0x82, 0, 5] = .ok t) ∧ 256 < (List.replicate 257 (1 : Byte)).length := ⟨⟨_, rfl⟩, by rw [List.length_replicate]; decide⟩
theorem witness_EqualReadsAreEqualMemories :
    Memory.wf [(0, 1), (255, 2)] ∧ Memory.wf (Memory.write (Memory.write [] 255 2) 0 1) ∧
    ∀ a, a < 256 → Memory.read [(0, 1), (255, 2)] a = Memory.read (Memory.write (Memory.write [] 255 2) 0 1) a :=
  ⟨by decide, by decide, fun _ _ => rfl⟩
theorem witness_PowerOnState : 255 < 256 ∧ 7 < 8 := by decide
theorem witness_EveryRunEnds : 257 ≤ 257 := le_rfl
theorem witness_SuspendedRunResumes : run (some 0) State.reset = (.suspended, State.reset) := rfl
theorem witness_FaultedRunFaultsAgain : run none State.reset = (.faulted (.invalidOpcode 0 0), State.reset) := rfl
theorem witness_HaltedRunStandsAfterHlt : ∃ t, run (some 1) (machineAt 255 [0x01] 0 0) = (.halted, t) := ⟨_, rfl⟩
theorem witness_LoadedCodeRunsToItsHalt :
    (∀ i ∈ [Instr.ldi 7 255, .prn 7], i.wf = true ∧ i ≠ .hlt ∧ ∀ a b, i ≠ .div a b) ∧
    ∃ t, State.reset.loadProgram ([Instr.ldi 7 255, .prn 7].flatMap encode ++ encode .hlt) = .ok t := by
  refine ⟨?_, _, rfl⟩
  simp only [List.mem_cons, List.not_mem_nil, or_false, forall_eq_or_imp, forall_eq]
  exact ⟨⟨by decide, by simp⟩, by decide, by simp⟩
theorem witness_PlacedWordIsWhatRuns :
    (machineAt 253 [] 0 0).pc.toNat + 2 < 256 ∧ decodeTableWord 24 0x050082 = some (.ldi 0 5) := ⟨by decide, rfl⟩
/-- A step that halts, one that goes on, and one that faults. -/
theorem witness_RunRepeatsTheCycle :
    (machineAt 255 [0x01] 0 0).eng = .running ∧ (∃ t, step (machineAt 255 [0x01] 0 0) = .next t ∧ t.eng = .halted) ∧
    (machineAt 254 [0x47, 0] 5 0).eng = .running ∧ (∃ t, step (machineAt 254 [0x47, 0] 5 0) = .next t ∧ t.eng = .running) ∧
    (machineAt 256 [] 0 0).eng = .running ∧ step (machineAt 256 [] 0 0) = .fault (.outOfBounds .memory 256) :=
  ⟨rfl, ⟨_, rfl, rfl⟩, rfl, ⟨_, rfl, rfl⟩, rfl, rfl⟩
theorem witness_HostAccessorsChangeOnePlace : 255 < 256 ∧ 254 ≠ 255 ∧ 7 < 8 ∧ 6 ≠ 7 ∧ 256 ≤ 256 ∧ 8 ≤ 8 := by decide

end Sys2Proof.Tests
end

section
/-! PROOFS. The laws shared by the claims about the state (10_state.md): carrying a change of the state through an
instruction's execution, what a step and a run do to `OUT`, `pc` and `ENG`, and a register that an instruction does not
read. -/

namespace Sys2Proof.Machine

open Sys2Proof.Safety

/-! ### A change of the state carried through an instruction -/

/-- An outcome with its next state, where it has one, changed by `g`. -/
def mapNext (g : State → State) : StepOutcome → StepOutcome
  | .next t => .next (g t)
  | .fault f => .fault f
  | .refused r => .refused r

@[simp] theorem mapNext_next (g : State → State) (t : State) : mapNext g (.next t) = .next (g t) := rfl
@[simp] theorem mapNext_fault (g : State → State) (f : Fault) : mapNext g (.fault f) = .fault f := rfl
@[simp] theorem mapNext_refused (g : State → State) (r : Refusal) : mapNext g (.refused r) = .refused r := rfl

theorem mapNext_eq_fault_iff (g : State → State) (o : StepOutcome) (f : Fault) :
    mapNext g o = .fault f ↔ o = .fault f := by
  cases o <;> simp

theorem complete_map (g : State → State) (n : Nat) (hg : ∀ t, (g t).advance n = g (t.advance n))
    (r : Except Fault State) : complete n (r.map g) = mapNext g (complete n r) := by
  cases r with
  | ok t => exact congrArg Host.Outcome.next (hg t)
  | error f => rfl

/-- Changing the state by `g` commutes with what an instruction does to `ENG`, `OUT` and `pc`. -/
structure CommutesWithEffects (g : State → State) : Prop where
  setEngine : ∀ t e, (g t).setEngine e = g (t.setEngine e)
  emit : ∀ t v, (g t).emit v = g (t.emit v)
  advance : ∀ t n, (g t).advance n = g (t.advance n)

/-- Changing the state by `g` commutes with writing the register `d`. -/
def CommutesWithWriteOf (g : State → State) (d : Nat) : Prop :=
  ∀ t v (hd : d < 8), (g t).setReg d v hd = g (t.setReg d v hd)

theorem State.regs_eq_of_readReg_eq {s t : State} {i : Nat} (h : t.readReg i = s.readReg i) (hi : i < 8) :
    t.regs[i] = s.regs[i] := by
  rw [t.readReg_of_lt i hi, s.readReg_of_lt i hi] at h
  exact Except.ok.inj h

theorem State.aluInto_map {g : State → State} {s : State} (op : AluOp) {a b : Byte}
    (ha : (g s).readReg a.toNat = s.readReg a.toNat) (hb : (g s).readReg b.toNat = s.readReg b.toNat)
    (hw : CommutesWithWriteOf g a.toNat) : (g s).aluInto op a b = (s.aluInto op a b).map g := by
  rw [State.aluInto_eq, State.aluInto_eq]
  by_cases ha8 : a.toNat < 8
  · by_cases hb8 : b.toNat < 8
    · simp only [ha8, hb8, dite_true, State.regs_eq_of_readReg_eq ha ha8, State.regs_eq_of_readReg_eq hb hb8]
      cases alu op s.regs[a.toNat] s.regs[b.toNat] with
      | ok r => exact congrArg Except.ok (hw s r ha8)
      | error f => rfl
    · simp [ha8, hb8, Except.map]
  · simp [ha8, Except.map]

/-- An instruction carries a change of the state through: where the registers it reads hold what they held, and the change
commutes with everything the instruction writes, it answers the same outcome with the same change made to it. -/
theorem exec_map {g : State → State} (hg : CommutesWithEffects g) {i : Instr} {s : State}
    (hread : ∀ r ∈ regsRead i, (g s).readReg r.toNat = s.readReg r.toNat)
    (hwrite : ∀ d, regWritten i = some d → CommutesWithWriteOf g d.toNat) : exec i (g s) = mapNext g (exec i s) := by
  rcases Instr.shapes i with rfl | ⟨a, b, rfl⟩ | ⟨a, rfl⟩ | ⟨op, a, b, rfl⟩
  · rw [exec_hlt, exec_hlt, hg.setEngine, hg.advance, mapNext_next]
  · rw [exec_ldi, exec_ldi]
    split
    · rw [hwrite a rfl, hg.advance, mapNext_next]
    · rfl
  · rw [exec_prn, exec_prn]
    split
    next ha => rw [State.regs_eq_of_readReg_eq (hread a (by simp [regsRead])) ha, hg.emit, hg.advance, mapNext_next]
    next => rfl
  · rw [exec_aluInstr, exec_aluInstr,
      State.aluInto_map op (hread a (by simp)) (hread b (by simp)) (hwrite a (by simp)),
      complete_map g 2 (hg.advance · 2)]

/-! ### `OUT`, `pc` and `ENG` over a step and a run -/

/-- The state with values put before the output log. -/
def State.prependOut (earlier : List Byte) (s : State) : State := { s with out := earlier ++ s.out }

theorem exec_prependOut (earlier : List Byte) (i : Instr) (s : State) :
    exec i (s.prependOut earlier) = mapNext (State.prependOut earlier) (exec i s) := by
  have hg : CommutesWithEffects (State.prependOut earlier) :=
    { setEngine := fun _ _ => rfl
      emit := fun t v => by simp [State.prependOut, State.emit]
      advance := fun _ _ => rfl }
  exact exec_map hg (fun _ _ => State.readReg_congr rfl _) (fun _ _ _ _ _ => rfl)

/-- What a step that completes in RUNNING does to `OUT` (10_state.md R25). -/
theorem step_out {s t : State} (hr : s.eng = .running) (h : step s = .next t) :
    (t.out = s.out ∧ ∀ a, ¬ CodeAt s (.prn a)) ∨
    ∃ a v, CodeAt s (.prn a) ∧ s.readReg a.toNat = .ok v ∧ t.out = s.out ++ [v] := by
  obtain ⟨i, hi, he⟩ := step_next hr h
  obtain ⟨-, -, -, ⟨hout, hne⟩ | ⟨a, v, rfl, hv, hout⟩, -⟩ := exec_next he
  · exact .inl ⟨hout, fun a ha => hne a (codeAt_unique hi ha)⟩
  · exact .inr ⟨a, v, hi, hv, hout⟩

/-- A step that completes in RUNNING moves `pc` past the instruction that stands there (10_state.md R20). -/
theorem step_pc_past_code {s t : State} (hr : s.eng = .running) (h : step s = .next t) :
    ∃ i, CodeAt s i ∧ t.pc.toNat = s.pc.toNat + 1 + i.arity := by
  obtain ⟨i, hi, he⟩ := step_next hr h
  obtain ⟨-, -, -, -, hpc⟩ := exec_next he
  exact ⟨i, hi, by rw [hpc, pc_past_code hi, Nat.add_assoc]⟩

/-- A step that completes in RUNNING halts exactly when HLT stands at the program counter (10_state.md R22). -/
theorem step_halts_iff {s t : State} (hr : s.eng = .running) (h : step s = .next t) :
    t.eng = .halted ↔ CodeAt s .hlt := by
  obtain ⟨i, hi, he⟩ := step_next hr h
  obtain ⟨-, -, heng, -, -⟩ := exec_next he
  by_cases hlt : i = .hlt
  · subst hlt
    exact iff_of_true heng hi
  · refine iff_of_false ?_ fun hc => hlt (codeAt_unique hi hc)
    rw [heng, if_neg hlt, hr]
    decide

theorem hostStep_run_state (b : Option Nat) (s : State) : (hostStep (.run b) s).2 = (run b s).2 := rfl

/-- A run only appends to `OUT`. -/
theorem run_out_appends (b : Option Nat) (s : State) : s.out <+: (run b s).2.out := by
  refine run_induction (R := fun s t => s.out <+: t.out) (fun _ => ⟨[], List.append_nil _⟩)
    (fun s t u hr h htu => ?_) b s
  have hst : s.out <+: t.out := by
    obtain ⟨hout, -⟩ | ⟨a, v, -, -, hout⟩ := step_out hr h
    · rw [hout]
    · exact ⟨[v], hout.symm⟩
  exact hst.trans htu

/-- A run never moves `pc` down. -/
theorem run_pc_le (b : Option Nat) (s : State) : s.pc.toNat ≤ (run b s).2.pc.toNat :=
  run_induction (R := fun s t => s.pc.toNat ≤ t.pc.toNat) (fun _ => le_rfl)
    (fun _ _ _ hr h htu => (step_pc hr h).1.le.trans htu) b s

/-- Of the host's operations only engine reset and power-on leave HALTED (10_state.md R22). -/
theorem hostStep_leaves_halted {op : HostOp} {s : State} (hh : s.eng = .halted) (hr : (hostStep op s).2.eng = .running) :
    op = .engineReset ∨ op = .powerOn := by
  by_contra hne
  obtain ⟨hreset, hpower⟩ := not_or.mp hne
  have hkeeps : (hostStep op s).2.eng = s.eng := by
    by_cases hrun : ∃ b, op = .run b
    · obtain ⟨b, rfl⟩ := hrun
      rw [hostStep_run_state, run_of_halted b hh]
    · exact (hostStep_frame op s hpower hreset (not_exists.mp hrun)).2.1
  rw [hkeeps, hh] at hr
  cases hr

/-! ### Registers an instruction writes and reads -/

/-- A register that the instruction does not name as its destination holds what it held (10_state.md R15). -/
theorem exec_keeps_register {i : Instr} {s t : State} (h : exec i s = .next t) {j : Nat}
    (hj : ∀ d, regWritten i = some d → j ≠ d.toNat) : t.readReg j = s.readReg j := by
  obtain ⟨-, ⟨-, hregs⟩ | ⟨d, v, hw, hd, hregs⟩, -, -, -⟩ := exec_next h
  · exact State.readReg_congr hregs j
  · rw [State.readReg_congr hregs j, State.readReg_setReg, if_neg (hj d hw)]

/-- Setting a register that the instruction neither reads nor writes changes its outcome in that register alone. -/
theorem exec_setReg_of_untouched {i : Instr} (s : State) {k : Nat} (v : Byte) (hk : k < 8)
    (hread : ∀ r ∈ regsRead i, r.toNat ≠ k) (hwrite : ∀ d, regWritten i = some d → d.toNat ≠ k) :
    exec i (s.setReg k v hk) = mapNext (fun t => t.setReg k v hk) (exec i s) := by
  have hg : CommutesWithEffects (fun t => t.setReg k v hk) := ⟨fun _ _ => rfl, fun _ _ => rfl, fun _ _ => rfl⟩
  refine exec_map hg (fun r hr => ?_) (fun d hd t w hd8 => ?_)
  · rw [State.readReg_setReg, if_neg (hread r hr)]
  · exact congrArg (fun regs => { t with regs := regs }) (Vector.set_comm _ _ (hwrite d hd).symm)

/-- Setting a register that the instruction does not read and overwrites (LDI's destination) changes nothing of its
outcome. -/
theorem exec_setReg_of_overwritten {i : Instr} (s : State) {d : Byte} (v : Byte) (hd : d.toNat < 8)
    (hread : ∀ r ∈ regsRead i, r.toNat ≠ d.toNat) (hwrite : regWritten i = some d) :
    exec i (s.setReg d.toNat v hd) = exec i s := by
  rcases Instr.shapes i with rfl | ⟨a, b, rfl⟩ | ⟨a, rfl⟩ | ⟨op, a, b, rfl⟩
  · cases hwrite
  · cases hwrite
    rw [exec_ldi, exec_ldi, dif_pos hd, dif_pos hd]
    simp [State.setReg]
  · cases hwrite
  · rw [aluInstr_regWritten] at hwrite
    cases hwrite
    exact absurd rfl (hread d (by simp))

/-- Setting a register that the instruction does not read: the instruction overwrites it, or else carries it through. -/
theorem exec_setReg_of_unread {i : Instr} (s : State) {k : Nat} (v : Byte) (hk : k < 8)
    (hread : ∀ r ∈ regsRead i, r.toNat ≠ k) :
    exec i (s.setReg k v hk) = exec i s ∨
    (¬ (∃ d, regWritten i = some d ∧ d.toNat = k) ∧
      exec i (s.setReg k v hk) = mapNext (fun t => t.setReg k v hk) (exec i s)) := by
  by_cases hw : ∃ d, regWritten i = some d ∧ d.toNat = k
  · obtain ⟨d, hd, rfl⟩ := hw
    exact .inl (exec_setReg_of_overwritten s v hk hread hd)
  · exact .inr ⟨hw, exec_setReg_of_untouched s v hk hread fun d hd hdk => hw ⟨d, hd, hdk⟩⟩

theorem State.writeReg_ok {s s' : State} {i : Nat} {v : Byte} (h : s.writeReg i v = .ok s') :
    ∃ hi : i < 8, s' = s.setReg i v hi := by
  by_cases hi : i < 8
  · rw [s.writeReg_of_lt i v hi] at h
    exact ⟨hi, (Except.ok.inj h).symm⟩
  · rw [s.writeReg_of_ge i v (Nat.le_of_not_lt hi)] at h
    cases h

theorem hostStep_readRegister_of_lt (s : State) (i : Nat) (h : i < 8) :
    hostStep (.readRegister i) s = (.value s.regs[i], s) := by
  simp [hostStep, s.readReg_of_lt i h, replyRead]

end Sys2Proof.Machine
end

section
/-! PROOFS. The claims about the state (10_state.md), each assembled from the laws above. -/

namespace Sys2Proof.Machine

open Sys2Proof.Safety

/-- Settles O21. The step clause is what a completed instruction does to `OUT`, the run clause the induction over the
cycles, and the last clause that values put before the log are carried through every instruction. -/
theorem outputIsAppendOnly : Obligations.OutputIsAppendOnly := by
  refine ⟨rfl, fun s t hr h => ?_, fun op s hp hb => ?_, fun b s => ?_, fun i s earlier => ?_⟩
  · obtain ⟨hout, hno⟩ | ⟨a, v, hcode, hv, hout⟩ := step_out hr h
    · exact ⟨fun _ => hout, fun a ha => absurd ha (hno a)⟩
    · refine ⟨fun hno => absurd hcode (hno a), fun c hc => ?_⟩
      cases codeAt_unique hcode hc
      exact ⟨v, hv, hout⟩
  · by_cases hr : op = .engineReset
    · subst hr
      rfl
    · exact (hostStep_frame op s hp hr hb).2.2
  · obtain ⟨vs, hvs⟩ := run_out_appends b s
    exact ⟨vs, hvs.symm⟩
  · refine (exec_prependOut earlier i s).trans ?_
    cases exec i s <;> rfl

/-- Settles O22. A completed step moves `pc` past the instruction that stands there, so no run moves it down; the host's
other operations keep it. -/
theorem onlyThreeThingsWritePc : Obligations.OnlyThreeThingsWritePc :=
  ⟨fun _ => rfl, fun _ => rfl, fun _ _ => step_pc_past_code,
    fun op s hp hr hb => (hostStep_frame op s hp hr hb).1, run_pc_le⟩

/-- Settles O23, from what a completed step does to `ENG` and from the frame of the host's operations. -/
theorem engineStateTransitions : Obligations.EngineStateTransitions :=
  ⟨rfl, fun _ _ => step_halts_iff, fun _ _ => hostStep_leaves_halted, fun _ => ⟨rfl, rfl, rfl, rfl⟩,
    fun _ => step_of_halted, fun op s hp hr hb => (hostStep_frame op s hp hr hb).2.1⟩

/-- Settles O24. A register that is not read is either overwritten, and then nothing depends on it, or carried through
unchanged. -/
theorem instructionsReadAndWriteTheirRegisters : Obligations.InstructionsReadAndWriteTheirRegisters := by
  refine ⟨fun i s t h j hj => exec_keeps_register h hj, fun i s s' k v hs' hread => ?_, fun s j v hj => ?_⟩
  · obtain ⟨hk, rfl⟩ := State.writeReg_ok hs'
    obtain heq | ⟨hnot, heq⟩ := exec_setReg_of_unread s v hk hread
    · rw [heq]
      exact ⟨fun f => Iff.rfl, fun t ht => ⟨t, ht, rfl, rfl, rfl, rfl, fun _ _ => rfl⟩⟩
    · rw [heq]
      refine ⟨fun f => (mapNext_eq_fault_iff _ _ f).symm, fun t ht => ?_⟩
      rw [ht]
      refine ⟨t.setReg k v hk, rfl, rfl, rfl, rfl, rfl, fun j hj => ?_⟩
      rw [State.readReg_setReg, if_neg (hj.resolve_right hnot)]
  · refine ⟨hostStep_readRegister_state s j, s.setReg j v hj, ?_, ?_, fun k hk => ?_, rfl, rfl, rfl, rfl⟩
    · rw [hostStep_writeRegister_of_lt s j v hj]
    · rw [hostStep_readRegister_of_lt _ j hj]
      simp
    · rw [State.readReg_setReg, if_neg hk]

end Sys2Proof.Machine
end

section
/-! PROOFS. The laws shared by the claims about memory (20_memory.md): the checked write and a read after it, memory
carried through an instruction's execution, and what leaves memory as it was. -/

namespace Sys2Proof.Machine

/-! ### Memory replaced as a whole -/

/-- The state with the memory `m` in place of its own. -/
def State.withMem (m : Memory) (s : State) : State := { s with mem := m }

@[simp] theorem State.withMem_mem (m : Memory) (s : State) : (s.withMem m).mem = m := rfl

/-- An instruction carries a replaced memory through: it neither reads nor writes it (20_memory.md R36). -/
theorem exec_withMem (m : Memory) (i : Instr) (s : State) :
    exec i (s.withMem m) = mapNext (State.withMem m) (exec i s) := by
  have hg : CommutesWithEffects (State.withMem m) := ⟨fun _ _ => rfl, fun _ _ => rfl, fun _ _ => rfl⟩
  exact exec_map hg (fun _ _ => State.readReg_congr rfl _) (fun _ _ _ _ _ => rfl)

/-! ### The checked write, and a read after it -/

theorem State.memWrite_of_lt (s : State) (a : Nat) (v : Byte) (h : a < 256) :
    s.memWrite a v = .ok (s.withMem (s.mem.write a v)) := by
  obtain ⟨-, hok⟩ | ⟨hge, -⟩ := s.memWrite_cases a v
  · exact hok
  · exact absurd h (Nat.not_lt.mpr hge)

/-- A checked read after a write: the written byte at the written address, the same answer as before, a fault included,
at every other (20_memory.md R33). -/
theorem State.memRead_withMem_write (s : State) {a : Nat} (v : Byte) (ha : a < 256) (b : Nat) :
    (s.withMem (s.mem.write a v)).memRead b = if b = a then .ok v else s.memRead b := by
  by_cases hb : b < 256
  · rw [State.memRead_of_lt _ b hb, s.memRead_of_lt b hb, State.withMem_mem, Memory.read_write]
    split <;> rfl
  · have hne : b ≠ a := fun h => hb (h ▸ ha)
    have hge : 256 ≤ b := Nat.le_of_not_lt hb
    rw [if_neg hne, State.memRead_of_ge _ b hge, s.memRead_of_ge b hge]

theorem hostStep_readMemory_of_lt (s : State) (a : Nat) (h : a < 256) :
    hostStep (.readMemory a) s = (.value (s.mem.read a), s) := by
  simp [hostStep, s.memRead_of_lt a h, replyRead]

theorem hostStep_readMemory_of_ge (s : State) (a : Nat) (h : 256 ≤ a) :
    hostStep (.readMemory a) s = (.fault (.outOfBounds .memory a), s) := by
  simp [hostStep, s.memRead_of_ge a h, replyRead]

/-! ### What leaves memory as it was -/

/-- A step writes no memory, in either engine state. -/
theorem step_mem {s t : State} (h : step s = .next t) : t.mem = s.mem := by
  cases he : s.eng with
  | halted =>
    rw [step_of_halted he] at h
    cases h
    rfl
  | running =>
    obtain ⟨i, -, hi⟩ := step_next he h
    obtain ⟨hmem, -⟩ := exec_next hi
    exact hmem

theorem run_mem (b : Option Nat) (s : State) : (run b s).2.mem = s.mem :=
  run_induction (R := fun s t => t.mem = s.mem) (fun _ => rfl) (fun _ _ _ _ h htu => htu.trans (step_mem h)) b s

/-- Of the host's operations only power-on, `write_memory` and `load_program` write memory (20_memory.md R36). -/
theorem hostStep_mem (op : HostOp) (s : State) (hp : op ≠ .powerOn) (hw : ∀ a v, op ≠ .writeMemory a v)
    (hl : ∀ bytes, op ≠ .loadProgram bytes) : (hostStep op s).2.mem = s.mem := by
  cases op with
  | powerOn => exact absurd rfl hp
  | engineReset => rfl
  | run b => exact run_mem b s
  | readMemory a => rw [hostStep_readMemory_state]
  | writeMemory a v => exact absurd rfl (hw a v)
  | readRegister i => rw [hostStep_readRegister_state]
  | writeRegister i v =>
    by_cases h : i < 8
    · rw [hostStep_writeRegister_of_lt s i v h, State.setReg_mem]
    · rw [hostStep_writeRegister_of_ge s i v (Nat.le_of_not_lt h)]
  | loadProgram bytes => exact absurd rfl (hl bytes)
  | snapshot => rfl

end Sys2Proof.Machine
end

section
/-! PROOFS. The claims about memory and the checked accesses (20_memory.md), each assembled from the laws above. -/

namespace Sys2Proof.Machine

/-- Settles O20. An instruction carries any memory through unread and unchanged; so every step, and by induction every
run, keeps memory. -/
theorem onlyTheHostWritesMemory : Obligations.OnlyTheHostWritesMemory := by
  refine ⟨fun _ _ => step_mem, fun i s m => ?_, hostStep_mem⟩
  refine (exec_withMem m i s).trans ?_
  cases exec i s <;> rfl

/-- Settles O42, by the rule for a checked read after a write at the two kinds of address. -/
theorem memoryReadAfterWrite : Obligations.MemoryReadAfterWrite := by
  intro s a v ha
  refine ⟨s.withMem (s.mem.write a v), s.memWrite_of_lt a v ha, ?_, fun b hb => ?_⟩
  · rw [s.memRead_withMem_write v ha, if_pos rfl]
  · rw [s.memRead_withMem_write v ha, if_neg hb]

/-- Settles O44, from what the checked read and the host's read answer inside and outside memory. -/
theorem memoryReadIsChecked : Obligations.MemoryReadIsChecked := fun s a =>
  ⟨fun h => ⟨s.memRead_of_ge a h, hostStep_readMemory_of_ge s a h⟩,
    fun h => ⟨s.memRead_of_lt a h, hostStep_readMemory_of_lt s a h⟩⟩

/-- Settles O45, from what a register read answers at the two kinds of index. -/
theorem registerReadIsChecked : Obligations.RegisterReadIsChecked := fun s i =>
  ⟨s.readReg_of_ge i, s.readReg_of_lt i⟩

end Sys2Proof.Machine
end

section
/-! PROOFS. The laws shared by the claims about the encoding (30_encoding.md): the arity that an opcode byte shows, the
step of a byte that is no opcode, and the execution of an operand that names no register. -/

namespace Sys2Proof

/-! ### The arity in the opcode byte -/

theorem Form.arity_le (form : Form) : form.arity ≤ 2 := by
  cases form <;> simp [Form.arity]

/-- Every row of the table, as a whole byte, carries its arity in the two high bits (30_encoding.md R52). -/
theorem opcodeTable_arity : ∀ row ∈ opcodeTable, row.form.arity = (row.opcode.extractLsb' 6 2).toNat := by
  decide

theorem lookupOpcode_highBits {op : Byte} {row : OpcodeRow} (h : lookupOpcode op = some row) :
    row.form.arity = (op.extractLsb' 6 2).toNat := by
  obtain ⟨hmem, rfl⟩ := lookupOpcode_some h
  exact opcodeTable_arity row hmem

/-- High bits `11` would be the arity 3, which no format has (30_encoding.md R50, R52). -/
theorem lookupOpcode_highBits_three {op : Byte} (h : op.extractLsb' 6 2 = 0b11) : lookupOpcode op = none := by
  cases hl : lookupOpcode op with
  | none => rfl
  | some row =>
    have harity : row.form.arity = 3 := by rw [lookupOpcode_highBits hl, h]; rfl
    have hle := row.form.arity_le
    omega

end Sys2Proof

namespace Sys2Proof.Machine

/-! ### A byte that is no opcode -/

/-- A byte inside memory that the table does not hold faults as an opcode, at every address: none of the step's other
outcomes is left to it (40_fetch_decode_dispatch.md R72). -/
theorem step_of_illegal {s : State} (hr : s.eng = .running) (hpc : s.pc.toNat < 256)
    (hl : lookupOpcode (s.mem.read s.pc.toNat) = none) :
    step s = .fault (.invalidOpcode (s.mem.read s.pc.toNat) s.pc.toNat) := by
  obtain ⟨hh, -⟩ | ⟨-, i, hcode, -⟩ | ⟨-, hge, -⟩ | ⟨-, -, -, hstep⟩ | ⟨-, row, -, hrow, -⟩ := step_cases s
  · rw [hr] at hh
    cases hh
  · obtain ⟨hop, -⟩ := (codeAt_iff s i).mp hcode
    obtain ⟨row, hrow, -⟩ := lookupOpcode_opcode i
    rw [(State.memRead_ok hop).2, hrow] at hl
    cases hl
  · omega
  · exact hstep
  · rw [hl] at hrow
    cases hrow

/-! ### An operand that names no register -/

/-- An instruction with an operand that names no register faults with the whole value of the first such operand
(30_encoding.md R56; of two, the first by D9, log 8). -/
theorem exec_of_bad_operand {i : Instr} {r : Byte} (s : State)
    (h : i.regOperands.find? (fun r => decide (8 ≤ r.toNat)) = some r) :
    exec i s = .fault (.outOfBounds .register r.toNat) := by
  obtain rfl | ⟨a, b, rfl⟩ | ⟨a, rfl⟩ | ⟨op, a, b, rfl⟩ := Instr.shapes i
  · cases h
  · obtain ⟨hr, rfl⟩ : 8 ≤ a.toNat ∧ a = r := by simpa [Instr.regOperands] using h
    rw [exec_ldi, dif_neg (Nat.not_lt.mpr hr)]
  · obtain ⟨hr, rfl⟩ : 8 ≤ a.toNat ∧ a = r := by simpa [Instr.regOperands] using h
    rw [exec_prn, dif_neg (Nat.not_lt.mpr hr)]
  · rw [exec_aluInstr, State.aluInto_eq]
    rw [aluInstr_regOperands] at h
    by_cases ha : a.toNat < 8
    · obtain ⟨hr, rfl⟩ : 8 ≤ b.toNat ∧ b = r := by simpa [Nat.not_le.mpr ha] using h
      rw [dif_pos ha, dif_neg (Nat.not_lt.mpr hr), complete_error]
    · obtain rfl : a = r := by simpa [Nat.le_of_not_lt ha] using h
      rw [dif_neg ha, complete_error]

end Sys2Proof.Machine
end

section
/-! PROOFS. The claims about the encoding (30_encoding.md), each assembled from the laws above. -/

namespace Sys2Proof.Machine

/-- Settles O39. The operand reported is the first one that names no register. -/
theorem registerIndexOutOfRangeFaults : Obligations.RegisterIndexOutOfRangeFaults := by
  refine ⟨fun i s ⟨r, hr, hbad⟩ => ?_, fun s r => s.readReg_of_ge r.toNat, fun s r => s.readReg_of_lt r.toNat⟩
  obtain ⟨first, hfind⟩ : ∃ first, i.regOperands.find? (fun r => decide (8 ≤ r.toNat)) = some first :=
    Option.isSome_iff_exists.mp (List.find?_isSome.mpr ⟨r, hr, decide_eq_true hbad⟩)
  have hge : 8 ≤ first.toNat := by simpa using List.find?_some hfind
  exact ⟨first, List.mem_of_find?_eq_some hfind, hge, exec_of_bad_operand s hfind⟩

/-- Settles O7, from the high bits of the table's twelve bytes and the step of a byte that is none of them. -/
theorem opcodeHighBitsAreTheArity : Obligations.OpcodeHighBitsAreTheArity :=
  ⟨fun _ _ => lookupOpcode_highBits, fun _ => lookupOpcode_highBits_three, fun _ => step_of_illegal⟩

end Sys2Proof.Machine
end

section
/-! PROOFS. The laws shared by the claims about the cycle (40_fetch_decode_dispatch.md): what code that stands at the program
counter says of memory, and the steps that steps 1 to 3 of the cycle settle. -/

namespace Sys2Proof.Machine

open Sys2Proof.Safety

/-! ### The bytes of code that stands at the program counter -/

theorem codeAt_opcode {s : State} {i : Instr} (h : CodeAt s i) : s.mem.read s.pc.toNat = i.opcode := by
  obtain ⟨hop, -⟩ := (codeAt_iff s i).mp h
  exact (State.memRead_ok hop).2

theorem codeAt_operand {s : State} {i : Instr} (h : CodeAt s i) {k : Nat} {v : Byte} (hv : i.operands[k]? = some v) :
    s.mem.read (s.pc.toNat + (k + 1)) = v := by
  obtain ⟨-, hoperands⟩ := (codeAt_iff s i).mp h
  exact (State.memRead_ok (hoperands k v hv)).2

/-! ### The steps a fetch settles -/

/-- A program counter outside memory faults with its own value, not wrapped (40_fetch_decode_dispatch.md R71). -/
theorem step_of_pc_outside {s : State} (hr : s.eng = .running) (hpc : 256 ≤ s.pc.toNat) :
    step s = .fault (.outOfBounds .memory s.pc.toNat) := by
  obtain ⟨hh, -⟩ | ⟨-, i, hcode, -⟩ | ⟨-, -, hstep⟩ | ⟨-, hlt, -⟩ | ⟨-, row, hlt, -⟩ := step_cases s
  · rw [hr] at hh
    cases hh
  · have := codeAt_fits hcode
    omega
  · exact hstep
  · omega
  · omega

/-- An opcode of the table inside memory: its instruction stands there and runs, or its operands run past the end of memory
and the step faults with index 256 (40_fetch_decode_dispatch.md R73). -/
theorem step_of_opcode {s : State} {row : OpcodeRow} (hr : s.eng = .running) (hpc : s.pc.toNat < 256)
    (hl : lookupOpcode (s.mem.read s.pc.toNat) = some row) :
    (∃ i, CodeAt s i ∧ i.arity = row.form.arity ∧ step s = exec i s) ∨
    (256 ≤ s.pc.toNat + row.form.arity ∧ step s = .fault (.outOfBounds .memory 256)) := by
  obtain ⟨hh, -⟩ | ⟨-, i, hcode, hstep⟩ | ⟨-, hge, -⟩ | ⟨-, -, hnone, -⟩ | ⟨-, row', -, hrow, hend, hstep⟩ := step_cases s
  · rw [hr] at hh
    cases hh
  · rw [codeAt_opcode hcode] at hl
    exact .inl ⟨i, hcode, (lookupOpcode_arity hl).symm, hstep⟩
  · omega
  · rw [hl] at hnone
    cases hnone
  · rw [hl] at hrow
    cases hrow
    exact .inr ⟨hend, hstep⟩

/-- Execution raises no fault of a memory access: only a fetch does (60_exceptions.md R121). -/
theorem exec_ne_memory_fault (i : Instr) (s : State) (a : Nat) : exec i s ≠ .fault (.outOfBounds .memory a) := by
  intro h
  obtain ⟨r, -, -, hf⟩ | ⟨hf, -⟩ := exec_fault h
  · cases hf
  · cases hf

/-- With an opcode of the table at the program counter, a step faults on memory exactly when the operands run past the
end. -/
theorem step_faults_at_end_iff {s : State} {row : OpcodeRow} (hr : s.eng = .running) (hpc : s.pc.toNat < 256)
    (hl : lookupOpcode (s.mem.read s.pc.toNat) = some row) :
    step s = .fault (.outOfBounds .memory 256) ↔ 256 ≤ s.pc.toNat + row.form.arity := by
  obtain ⟨i, hcode, harity, hstep⟩ | ⟨hend, hstep⟩ := step_of_opcode hr hpc hl
  · have hfit := codeAt_fits hcode
    rw [hstep]
    exact iff_of_false (exec_ne_memory_fault i s 256) (by omega)
  · exact iff_of_true hstep hend

end Sys2Proof.Machine
end

section
/-! PROOFS. The claims about the cycle (40_fetch_decode_dispatch.md), each assembled from the laws above. -/

namespace Sys2Proof.Machine

/-- Settles O13. Operands run past the end in the two stated cases because an arity is at most 2; where they fit, the code
that stands at `pc` is what the step runs. -/
theorem operandsPastTheEndFault : Obligations.OperandsPastTheEndFault := by
  intro s row hr hpc hl
  refine ⟨?_, fun hfit => ?_⟩
  · have harity := row.form.arity_le
    rw [step_faults_at_end_iff hr hpc hl]
    omega
  · obtain ⟨i, hcode, harity, hstep⟩ | ⟨hend, -⟩ := step_of_opcode hr hpc hl
    · exact ⟨i, hcode, (codeAt_opcode hcode).symm, harity, fun _ _ hv => (codeAt_operand hcode hv).symm, hstep⟩
    · omega

/-- Settles O11, from what a step and a run answer in HALTED. -/
theorem haltedMachineDoesNothing : Obligations.HaltedMachineDoesNothing := fun _ h =>
  ⟨step_of_halted h, fun budget => run_of_halted budget h⟩

/-- Settles O12, from the step at a `pc` outside memory, and inside memory from the byte at `pc`. -/
theorem fetchOutsideMemoryFaults : Obligations.FetchOutsideMemoryFaults := fun s hr =>
  ⟨step_of_pc_outside hr, fun hpc =>
    ⟨s.memRead_of_lt _ hpc, step_of_illegal hr hpc, fun _ hcode => ⟨codeAt_opcode hcode, step_of_codeAt hr hcode⟩⟩⟩

end Sys2Proof.Machine
end

section
/-! PROOFS. The laws of the ALU called by an operation name (42_alu.md R112), and the faults of a step, for the claims
about the ALU. -/

namespace Sys2Proof.Machine

open Sys2Proof.Safety

/-! ### The ALU called by name -/

/-- Every row of the ALU's table is found by its name: no name stands in two rows. -/
theorem aluTable_ofName? : ∀ row ∈ aluTable, AluOp.ofName? row.2.1 = some row.1 := by
  decide

theorem AluOp.ofName?_eq_none_iff (name : String) :
    AluOp.ofName? name = none ↔ name ∉ aluTable.map (fun row => row.2.1) := by
  simp only [AluOp.ofName?, Option.map_eq_none_iff, List.find?_eq_none, beq_iff_eq, List.mem_map, not_exists, not_and]

theorem aluApply_of_mem {row : AluOp × String × BitVec 4} (h : row ∈ aluTable) (va vb : Byte) :
    aluApply row.2.1 va vb = alu row.1 va vb := by
  rw [aluApply, aluTable_ofName? row h]

theorem aluApply_of_not_mem {name : String} (h : name ∉ aluTable.map (fun row => row.2.1)) (va vb : Byte) :
    aluApply name va vb = .error (.unsupportedOperation name) := by
  rw [aluApply, (AluOp.ofName?_eq_none_iff name).mpr h]

/-! ### The faults of a step -/

/-- What a step may fault with: the memory access of a fetch, an illegal opcode, or a fault of the instruction that stands
at the program counter. -/
theorem step_fault {s : State} {f : Fault} (h : step s = .fault f) :
    (∃ a, f = .outOfBounds .memory a) ∨ (∃ op, f = .invalidOpcode op s.pc.toNat) ∨
    ∃ i, CodeAt s i ∧ exec i s = .fault f := by
  obtain ⟨-, hstep⟩ | ⟨-, i, hcode, hstep⟩ | ⟨-, -, hstep⟩ | ⟨-, -, -, hstep⟩ | ⟨-, _, -, -, -, hstep⟩ := step_cases s
  · rw [hstep] at h
    cases h
  · exact .inr (.inr ⟨i, hcode, hstep ▸ h⟩)
  · rw [hstep] at h
    cases h
    exact .inl ⟨_, rfl⟩
  · rw [hstep] at h
    cases h
    exact .inr (.inl ⟨_, rfl⟩)
  · rw [hstep] at h
    cases h
    exact .inl ⟨_, rfl⟩

/-- No instruction raises UnsupportedOperation: execution faults on a register operand or on a zero divisor only. -/
theorem exec_ne_unsupportedOperation (i : Instr) (s : State) (name : String) :
    exec i s ≠ .fault (.unsupportedOperation name) := by
  intro h
  obtain ⟨_, -, -, hf⟩ | ⟨hf, -⟩ := exec_fault h
  · cases hf
  · cases hf

/-- No step raises UnsupportedOperation (60_exceptions.md R123). -/
theorem step_ne_unsupportedOperation (s : State) (name : String) : step s ≠ .fault (.unsupportedOperation name) := by
  intro h
  obtain ⟨_, hf⟩ | ⟨_, hf⟩ | ⟨i, -, he⟩ := step_fault h
  · cases hf
  · cases hf
  · exact exec_ne_unsupportedOperation i s name he

end Sys2Proof.Machine
end

section
/-! PROOFS. The claims about the ALU (42_alu.md), assembled from the laws above. -/

namespace Sys2Proof.Machine

/-- Settles O38. The nine names are those of the ALU's table, so each of its rows is applied under its name and every other
name raises UnsupportedOperation; a step has no fault of that kind. -/
theorem unsupportedOperationIsUnreachable : Obligations.UnsupportedOperationIsUnreachable := by
  refine ⟨fun _ va vb hname => aluApply_of_not_mem hname va vb, fun va vb => ?_, step_ne_unsupportedOperation⟩
  have hrows : ∀ row ∈ aluTable, aluApply row.2.1 va vb = alu row.1 va vb := fun _ hrow => aluApply_of_mem hrow va vb
  simpa [aluTable] using hrows

end Sys2Proof.Machine
end

section
/-! PROOFS. What `load_program` answers (70_reset_and_hazards.md R152, 20_memory.md R41), and the claim assembled from it. -/

namespace Sys2Proof.Machine

/-! ### The answers of `load_program`, and a read of a loaded image -/

theorem State.loadProgram_of_le (s : State) (bytes : List Byte) (h : bytes.length ≤ 256) :
    s.loadProgram bytes = .ok (s.withMem (s.mem.writeBytes 0 bytes)) :=
  if_pos h

theorem State.loadProgram_of_gt (s : State) (bytes : List Byte) (h : 256 < bytes.length) :
    s.loadProgram bytes = .error (.programTooLarge bytes.length 256) :=
  if_neg (Nat.not_le.mpr h)

/-- Where an image that fits was placed, a checked read gives its byte. -/
theorem State.memRead_withMem_writeBytes_zero (s : State) {bytes : List Byte} (hfit : bytes.length ≤ 256) {i : Nat}
    (hi : i < bytes.length) : (s.withMem (s.mem.writeBytes 0 bytes)).memRead i = .ok bytes[i] := by
  have hin : i < 256 := Nat.lt_of_lt_of_le hi hfit
  have hread : (s.mem.writeBytes 0 bytes).read i = bytes[i] := by
    rw [Memory.read_writeBytes, if_pos ⟨i.zero_le, by omega, hin⟩, Nat.sub_zero, List.getD_eq_getElem _ _ hi]
  rw [State.memRead_of_lt _ i hin, State.withMem_mem, hread]

/-- Settles O46. The length decides what `load_program` answers; an image that fits is then read back byte by byte, and the
empty one leaves memory, and so the whole state, as it was. -/
theorem loadProgramPlacesTheImage : Obligations.LoadProgramPlacesTheImage := by
  intro s bytes
  refine ⟨fun hfit => ?_, s.loadProgram_of_gt bytes, ?_⟩
  · exact ⟨_, s.loadProgram_of_le bytes hfit, fun i hi => s.memRead_withMem_writeBytes_zero hfit hi⟩
  · rintro rfl
    exact s.loadProgram_of_le [] (Nat.zero_le 256)

end Sys2Proof.Machine
end

section
/-! PROOFS. The laws of the decoder and the encoder together (30_encoding.md sections 4 and 5): an instruction read back from
its bytes, which bytes are no opcode, and sequential decoding of an image. -/

namespace Sys2Proof

open Safety

/-! ### One instruction -/

/-- An encoded instruction is read back, with the bytes after it left over. -/
theorem decode_encode_append (i : Instr) (rest : List Byte) : decode (encode i ++ rest) = .ok (i, rest) := by
  cases i with
  | hlt => rfl
  | prn a => rfl
  | _ a b => rfl

/-- Bytes that are read as an instruction begin with its whole encoding: the row's format makes it of the opcode byte and of
the operand bytes read. -/
theorem eq_encode_append_of_decode {bytes rest : List Byte} {i : Instr} (h : decode bytes = .ok (i, rest)) :
    bytes = encode i ++ rest := by
  cases bytes with
  | nil => cases h
  | cons op tail =>
    cases hl : lookupOpcode op with
    | none => simp [decode, hl] at h
    | some row =>
      have hm := lookupOpcode_makes hl
      obtain ⟨_, _, form⟩ := row
      match form, tail with
      | .f0 j, tail =>
        obtain ⟨rfl, rfl⟩ : j = i ∧ tail = rest := by simpa [decode, hl] using h
        simp [encode, hm.1, hm.2]
      | .f1 mk, a :: tail =>
        obtain ⟨rfl, rfl⟩ : mk a = i ∧ tail = rest := by simpa [decode, hl] using h
        simp [encode, (hm a).1, (hm a).2]
      | .f1 _, [] => simp [decode, hl] at h
      | .f2 mk, a :: b :: tail =>
        obtain ⟨rfl, rfl⟩ : mk a b = i ∧ tail = rest := by simpa [decode, hl] using h
        simp [encode, (hm a b).1, (hm a b).2]
      | .f2 _, [_] => simp [decode, hl] at h
      | .f2 _, [] => simp [decode, hl] at h

/-! ### The bytes that are no opcode -/

/-- A format that makes instructions of the opcode `op` makes one. -/
theorem Form.Makes.exists_instr {op : Byte} {form : Form} (h : form.Makes op) : ∃ i : Instr, i.opcode = op := by
  cases form with
  | f0 i => exact ⟨i, h.1⟩
  | f1 mk => exact ⟨mk 0, (h 0).1⟩
  | f2 mk => exact ⟨mk 0 0, (h 0 0).1⟩

/-- A byte that the table holds is an instruction's opcode, of the row's arity. -/
theorem exists_instr_of_lookupOpcode {op : Byte} {row : OpcodeRow} (h : lookupOpcode op = some row) :
    ∃ i : Instr, i.opcode = op ∧ i.arity = row.form.arity := by
  obtain ⟨i, rfl⟩ := (lookupOpcode_makes h).exists_instr
  exact ⟨i, rfl, (Machine.lookupOpcode_arity h).symm⟩

/-- The table holds no row of a byte exactly when the byte is the opcode of no instruction (30_encoding.md R54). -/
theorem lookupOpcode_eq_none_iff (op : Byte) : lookupOpcode op = none ↔ ∀ i : Instr, i.opcode ≠ op := by
  constructor
  · rintro h i rfl
    obtain ⟨row, hrow, -⟩ := lookupOpcode_opcode i
    rw [hrow] at h
    cases h
  · intro h
    cases hl : lookupOpcode op with
    | none => rfl
    | some row =>
      obtain ⟨i, hi, -⟩ := exists_instr_of_lookupOpcode hl
      exact absurd hi (h i)

/-- The twelve opcodes of the table are the bytes that the listed ranges leave out (30_encoding.md R57). -/
theorem mem_opcodes_iff_legal (op : Byte) :
    op ∈ opcodeTable.map (fun row => row.opcode) ↔ illegalOpcode op = false := by
  constructor
  · have htable : ∀ op ∈ opcodeTable.map (fun row => row.opcode), illegalOpcode op = false := by decide
    exact htable op
  · intro h
    have hvalues : opcodeTable.map (fun row => row.opcode.toNat) =
        [0x01, 0x82, 0x47, 0xA0, 0xA1, 0xA2, 0xA3, 0xA8, 0xAA, 0xAB, 0xAC, 0xAD] := rfl
    have hn : op.toNat ∈ opcodeTable.map (fun row => row.opcode.toNat) := by
      simp only [illegalOpcode, Bool.or_eq_false_iff, Bool.and_eq_false_iff, beq_eq_false_iff_ne,
        decide_eq_false_iff_not] at h
      simp only [hvalues, List.mem_cons]
      omega
    obtain ⟨row, hrow, he⟩ := List.mem_map.mp hn
    exact List.mem_map.mpr ⟨row, hrow, BitVec.eq_of_toNat_eq he⟩

theorem illegalOpcode_iff (op : Byte) : illegalOpcode op = true ↔ lookupOpcode op = none := by
  rw [← Bool.not_eq_false, ← mem_opcodes_iff_legal]
  simp [lookupOpcode]

/-- Of the 256 bytes the twelve opcodes are the legal ones. -/
theorem legalOpcodes_perm :
    ((List.range 256).filter (fun n => !illegalOpcode (BitVec.ofNat 8 n))).Perm
      (opcodeTable.map (fun row => row.opcode.toNat)) := by
  refine (List.perm_ext_iff_of_nodup (List.nodup_range.filter _) (by decide)).mpr fun n => ?_
  simp only [List.mem_filter, List.mem_range, Bool.not_eq_true', ← mem_opcodes_iff_legal, List.mem_map]
  constructor
  · rintro ⟨hn, row, hrow, he⟩
    exact ⟨row, hrow, by rw [he, BitVec.toNat_ofNat, Nat.mod_eq_of_lt hn]⟩
  · rintro ⟨row, hrow, rfl⟩
    exact ⟨row.opcode.isLt, row, hrow, by simp⟩

theorem illegalOpcodes_length : ((List.range 256).filter (fun n => illegalOpcode (BitVec.ofNat 8 n))).length = 244 := by
  have hsplit := (List.range 256).length_eq_length_filter_add (fun n => illegalOpcode (BitVec.ofNat 8 n))
  rw [legalOpcodes_perm.length_eq, List.length_range, List.length_map] at hsplit
  have htable : opcodeTable.length = 12 := rfl
  omega

/-- Any bytes may stand as the operands of an opcode (30_encoding.md R57). -/
theorem exists_decode_of_lookupOpcode {op : Byte} {row : OpcodeRow} (h : lookupOpcode op = some row) (a b : Byte) :
    ∃ i rest, decode [op, a, b] = .ok (i, rest) := by
  obtain ⟨_, _, form⟩ := row
  cases form with
  | f0 i => exact ⟨i, [a, b], by simp [decode, h]⟩
  | f1 mk => exact ⟨mk a, [b], by simp [decode, h]⟩
  | f2 mk => exact ⟨mk a b, [], by simp [decode, h]⟩

/-! ### Sequential decoding -/

/-- Where an illegal byte stands, or no byte at all, the sequential decoder stops. -/
theorem decodeUpTo_of_illegal {bytes : List Byte} (h : ∀ b, bytes.head? = some b → illegalOpcode b = true) (n : Nat) :
    decodeUpTo n bytes = ([], bytes) := by
  cases n with
  | zero => rfl
  | succ n =>
    cases bytes with
    | nil => rfl
    | cons b bytes =>
      have hl : lookupOpcode b = none := (illegalOpcode_iff b).mp (h b rfl)
      simp [decodeUpTo, decode, hl]

/-- The sequential decoder reads an instruction's encoding and goes on behind it. -/
theorem decodeUpTo_encode_append (n : Nat) (i : Instr) (rest : List Byte) :
    decodeUpTo (n + 1) (encode i ++ rest) = (i :: (decodeUpTo n rest).1, (decodeUpTo n rest).2) := by
  rw [decodeUpTo, decode_encode_append]

theorem decodeUpTo_image {rest : List Byte} (hrest : ∀ b, rest.head? = some b → illegalOpcode b = true)
    (is : List Instr) (n : Nat) (hn : is.length ≤ n) : decodeUpTo n (is.flatMap encode ++ rest) = (is, rest) := by
  induction is generalizing n with
  | nil => exact decodeUpTo_of_illegal hrest n
  | cons i is ih =>
    obtain ⟨m, rfl⟩ : ∃ m, n = m + 1 := Nat.exists_eq_add_one.mpr (Nat.zero_lt_of_lt hn)
    rw [List.flatMap_cons, List.append_assoc, decodeUpTo_encode_append, ih m (Nat.le_of_succ_le_succ hn)]

/-- An image has a byte at least for each of its instructions. -/
theorem length_le_length_flatMap_encode (is : List Instr) : is.length ≤ (is.flatMap encode).length := by
  induction is with
  | nil => exact Nat.le_refl 0
  | cons i is ih =>
    rw [List.flatMap_cons, List.length_append, List.length_cons, encode_length]
    omega

end Sys2Proof
end

section
/-! PROOFS. The claims about the decoder and the encoder together (30_encoding.md), each assembled from the laws above. -/

namespace Sys2Proof

/-- Settles O3: the rows of the table, for all operand bytes. -/
theorem instructionsEncodeAsTabled : Obligations.InstructionsEncodeAsTabled := fun _ _ =>
  ⟨rfl, rfl, rfl, rfl, rfl, rfl, rfl, rfl, rfl, rfl, rfl, rfl⟩

/-- Settles O4: each word is evaluated. -/
theorem writtenOutWordsDecode : Obligations.WrittenOutWordsDecode :=
  ⟨rfl, rfl, rfl, rfl, rfl, rfl, rfl⟩

/-- Settles O5: reading gives an encoded instruction back, and reads nothing but encodings. -/
theorem decodeAndEncodeAgree : Obligations.DecodeAndEncodeAgree := fun _ rest i =>
  ⟨eq_encode_append_of_decode, fun h => h ▸ decode_encode_append i rest⟩

/-- Settles O6, by induction on the instructions of the image. -/
theorem imageDecodesToItsInstructions : Obligations.ImageDecodesToItsInstructions := by
  intro is rest hrest
  refine decodeUpTo_image hrest is _ ?_
  have := length_le_length_flatMap_encode is
  rw [List.length_append]
  omega

/-- Settles O9. The 244 are the 256 bytes without the table's twelve, so each of them faults and any other is decoded. -/
theorem illegalOpcodesFault : Obligations.IllegalOpcodesFault := by
  refine ⟨illegalOpcodes_length, fun s hr hpc hill => ?_, fun op a b hlegal => ?_⟩
  · exact Machine.step_of_illegal hr hpc ((illegalOpcode_iff _).mp hill)
  · have hne : lookupOpcode op ≠ none := fun h => by simp [(illegalOpcode_iff op).mpr h] at hlegal
    obtain ⟨row, hrow⟩ := Option.ne_none_iff_exists'.mp hne
    exact exists_decode_of_lookupOpcode hrow a b

end Sys2Proof
end

section
/-! PROOFS. The laws shared by the claims about single instructions (41_control_and_data.md, 42_alu.md): the frame of a
register write, an ALU instruction whose operands can be read, which fault an execution raises, and a step at the end of
memory. -/

namespace Sys2Proof.Machine

open Sys2Proof.Safety

/-! ### An execution that writes one register -/

/-- Setting a register and moving past an instruction of two operand bytes changes nothing else. -/
theorem writesReg_setReg_advance (s : State) (d : Nat) (v : Byte) (hd : d < 8) :
    WritesReg s ((s.setReg d v hd).advance 2) d v 3 where
  regs := s.readReg_setReg d v hd
  mem _ := rfl
  eng := rfl
  out := rfl
  pc := rfl

/-- An ALU instruction whose operands can be read writes the ALU's answer (42_alu.md R102). -/
theorem exec_aluInstr_of_read {op : AluOp} {a b : Byte} {s : State} {va vb r : Byte} (ha : s.readReg a.toNat = .ok va)
    (hb : s.readReg b.toNat = .ok vb) (hr : alu op va vb = .ok r) :
    ∃ t, exec (aluInstr op a b) s = .next t ∧ WritesReg s t a.toNat r 3 := by
  obtain ⟨h, hinto⟩ := State.aluInto_of_read (op := op) ha hb
  rw [hr] at hinto
  exact ⟨_, by rw [exec_aluInstr, hinto, complete_ok], writesReg_setReg_advance s _ r h⟩

/-- An ALU instruction whose operands can be read raises the ALU's fault (42_alu.md R106). -/
theorem exec_aluInstr_of_alu_error {op : AluOp} {a b : Byte} {s : State} {va vb : Byte} {f : Fault}
    (ha : s.readReg a.toNat = .ok va) (hb : s.readReg b.toNat = .ok vb) (hf : alu op va vb = .error f) :
    exec (aluInstr op a b) s = .fault f := by
  obtain ⟨h, hinto⟩ := State.aluInto_of_read (op := op) ha hb
  rw [hf] at hinto
  rw [exec_aluInstr, hinto, complete_error]

/-- The ALU answers a byte but for DIV by zero. -/
theorem alu_ok {op : AluOp} {va vb : Byte} (h : op ≠ .div ∨ vb ≠ 0) : ∃ r, alu op va vb = .ok r := by
  obtain hok | ⟨hop, hvb, -⟩ := alu_cases op va vb
  · exact hok
  · exact absurd hvb (h.resolve_left (absurd hop))

/-! ### The faults of an execution -/

theorem exec_aluInstr_of_ge {a : Byte} (op : AluOp) (b : Byte) (s : State) (ha : 8 ≤ a.toNat) :
    exec (aluInstr op a b) s = .fault (.outOfBounds .register a.toNat) :=
  exec_of_bad_operand s (by simp [ha])

theorem exec_aluInstr_of_lt_of_ge {a b : Byte} (op : AluOp) (s : State) (ha : a.toNat < 8) (hb : 8 ≤ b.toNat) :
    exec (aluInstr op a b) s = .fault (.outOfBounds .register b.toNat) :=
  exec_of_bad_operand s (by simp [Nat.not_le.mpr ha, hb])

/-- An instruction that reads a zero divisor is a DIV. -/
theorem divisorZero_eq_true_iff (s : State) (i : Instr) :
    divisorZero s i = true ↔ ∃ a b, i = .div a b ∧ s.readReg b.toNat = .ok 0 := by
  cases i <;> simp [divisorZero]

theorem exec_div_of_zero {a b : Byte} {s : State} (ha : a.toNat < 8) (hb : s.readReg b.toNat = .ok 0) :
    exec (.div a b) s = .fault .divideByZero :=
  exec_aluInstr_of_alu_error (op := .div) (s.readReg_of_lt _ ha) hb (alu_div_zero _)

/-- Execution raises DivideByZero exactly for a DIV by a register that holds 0, both operands naming registers
(60_exceptions.md R124). -/
theorem exec_divideByZero_iff (i : Instr) (s : State) :
    exec i s = .fault .divideByZero ↔ ∃ a b, i = .div a b ∧ a.toNat < 8 ∧ s.readReg b.toNat = .ok 0 := by
  constructor
  · intro h
    obtain ⟨_, -, -, hf⟩ | ⟨-, hz⟩ := exec_fault h
    · cases hf
    · obtain ⟨a, b, rfl, hb⟩ := (divisorZero_eq_true_iff s i).mp hz
      refine ⟨a, b, rfl, Nat.lt_of_not_le fun ha => ?_, hb⟩
      rw [show Instr.div a b = aluInstr .div a b from rfl, exec_aluInstr_of_ge .div b s ha] at h
      cases h
  · rintro ⟨a, b, rfl, ha, hb⟩
    exact exec_div_of_zero ha hb

/-- An operand that names no register makes the execution fault with the first such operand. -/
theorem exec_of_mem_bad_operand {i : Instr} {r : Byte} (s : State) (hr : r ∈ i.regOperands) (hbad : 8 ≤ r.toNat) :
    ∃ first, i.regOperands.find? (fun r => decide (8 ≤ r.toNat)) = some first ∧
      exec i s = .fault (.outOfBounds .register first.toNat) := by
  have hsome : (i.regOperands.find? (fun r => decide (8 ≤ r.toNat))).isSome :=
    List.find?_isSome.mpr ⟨r, hr, decide_eq_true hbad⟩
  obtain ⟨first, hfind⟩ := Option.isSome_iff_exists.mp hsome
  exact ⟨first, hfind, exec_of_bad_operand s hfind⟩

/-- Execution raises OutOfBounds exactly when an operand names no register, with the first such operand (60_exceptions.md
R121). -/
theorem exec_outOfBounds_iff (i : Instr) (s : State) (kind : AddressKind) (index : Nat) :
    exec i s = .fault (.outOfBounds kind index) ↔ kind = .register ∧
      ∃ r, i.regOperands.find? (fun r => decide (8 ≤ r.toNat)) = some r ∧ r.toNat = index := by
  constructor
  · intro h
    obtain ⟨r, hr, hbad, -⟩ | ⟨hf, -⟩ := exec_fault h
    · obtain ⟨first, hfind, hexec⟩ := exec_of_mem_bad_operand s hr hbad
      rw [hexec] at h
      cases h
      exact ⟨rfl, first, hfind, rfl⟩
    · cases hf
  · rintro ⟨rfl, r, hfind, rfl⟩
    exact exec_of_bad_operand s hfind

/-- In HALTED no step faults. -/
theorem running_of_step_fault {s : State} {f : Fault} (h : step s = .fault f) : s.eng = .running := by
  cases he : s.eng with
  | running => rfl
  | halted =>
    rw [step_of_halted he] at h
    cases h

/-- A step raises DivideByZero exactly where the execution of the instruction at the program counter does: no fetch raises
it. -/
theorem step_divideByZero_iff (s : State) :
    step s = .fault .divideByZero ↔ s.eng = .running ∧ ∃ i, CodeAt s i ∧ exec i s = .fault .divideByZero := by
  constructor
  · intro h
    obtain ⟨_, hf⟩ | ⟨_, hf⟩ | hexec := step_fault h
    · cases hf
    · cases hf
    · exact ⟨running_of_step_fault h, hexec⟩
  · rintro ⟨hr, i, hcode, hexec⟩
    rw [step_of_codeAt hr hcode, hexec]

theorem exec_ne_invalidOpcode (i : Instr) (s : State) (op : Byte) (pc : Nat) : exec i s ≠ .fault (.invalidOpcode op pc) := by
  intro h
  obtain ⟨_, -, -, hf⟩ | ⟨hf, -⟩ := exec_fault h
  · cases hf
  · cases hf

/-! ### When an execution completes -/

/-- An instruction is well-formed exactly when none of its operands names no register. -/
theorem wf_eq_true_iff (i : Instr) : i.wf = true ↔ ∀ r ∈ i.regOperands, r.toNat < 8 := by
  simp [Instr.wf]

/-- A well-formed instruction that divides by no zero completes: it has none of the two faults left. -/
theorem exec_completes {i : Instr} {s : State} (hwf : i.wf = true) (hdiv : divisorZero s i = false) :
    ∃ t, exec i s = .next t := by
  cases h : exec i s with
  | next t => exact ⟨t, rfl⟩
  | refused r => exact absurd h (exec_ne_refused i s r)
  | fault f =>
    obtain ⟨r, hr, hbad, -⟩ | ⟨-, hz⟩ := exec_fault h
    · exact absurd ((wf_eq_true_iff i).mp hwf r hr) (Nat.not_lt.mpr hbad)
    · rw [hdiv] at hz
      cases hz

theorem wf_of_exec_next {i : Instr} {s t : State} (h : exec i s = .next t) : i.wf = true := by
  refine (wf_eq_true_iff i).mpr fun r hr => Nat.lt_of_not_le fun hbad => ?_
  obtain ⟨first, -, hexec⟩ := exec_of_mem_bad_operand s hr hbad
  rw [hexec] at h
  cases h

theorem divisorZero_of_exec_next {i : Instr} {s t : State} (h : exec i s = .next t) : divisorZero s i = false := by
  refine Bool.eq_false_iff.mpr fun hz => ?_
  obtain ⟨a, b, rfl, hb⟩ := (divisorZero_eq_true_iff s i).mp hz
  have ha : a.toNat < 8 := (wf_eq_true_iff _).mp (wf_of_exec_next h) a (by simp [Instr.regOperands])
  rw [exec_div_of_zero ha hb] at h
  cases h

/-! ### The end of memory, and HLT -/

/-- An instruction that would run off the end of memory, and the address 256 itself, fault with index 256
(40_fetch_decode_dispatch.md R71, R73). -/
theorem step_of_runsOff {s : State} {i : Instr} (hr : s.eng = .running) (h : s.pc = 256 ∨ RunsOffTheEnd s i) :
    step s = .fault (.outOfBounds .memory 256) := by
  obtain hpc | ⟨hlt, hop, hend⟩ := h
  · have hpc : s.pc.toNat = 256 := by rw [hpc]; rfl
    rw [step_of_pc_outside hr hpc.ge, hpc]
  · obtain ⟨row, hrow, -⟩ := lookupOpcode_opcode i
    refine (step_faults_at_end_iff hr hlt (hop ▸ hrow)).mpr ?_
    rwa [lookupOpcode_arity hrow]

/-- What HLT leaves: `ENG` HALTED, `pc` one further, and the rest as it was (41_control_and_data.md R90). -/
theorem keepsRegsAndMem_hlt (s : State) : KeepsRegsAndMem s ((s.setEngine .halted).advance 0) :=
  ⟨fun _ => rfl, fun _ => rfl⟩

/-! ### The ALU on bytes -/

theorem alu_add_eq (va vb : Byte) : alu .add va vb = .ok (va + vb) := by
  rw [alu_add, BitVec.add_def]

theorem alu_mul_eq (va vb : Byte) : alu .mul va vb = .ok (va * vb) := by
  rw [alu_mul, BitVec.ofNat_mul, BitVec.ofNat_toNat, BitVec.ofNat_toNat, BitVec.setWidth_eq, BitVec.setWidth_eq]

/-- An answer of the ALU is the exact result reduced modulo 256 (42_alu.md R101). -/
theorem alu_eq_exact_mod {op : AluOp} {va vb r : Byte} (h : alu op va vb = .ok r) :
    ∃ e, aluExact op va.toNat vb.toNat = .ok e ∧ (r.toNat : Int) = e % 256 := by
  unfold alu at h
  cases he : aluExact op va.toNat vb.toNat with
  | ok e =>
    rw [he] at h
    cases h
    exact ⟨e, rfl, wrapByte_toNat e⟩
  | error f =>
    rw [he] at h
    cases h

theorem alu_shl_eq_mul (va vb : Byte) : alu .shl va vb = alu .mul va (BitVec.ofNat 8 (2 ^ vb.toNat)) := by
  rw [alu_shl, alu_mul_eq]
  refine congrArg Except.ok (BitVec.eq_of_toNat_eq ?_)
  rw [BitVec.toNat_shiftLeft, BitVec.toNat_mul, BitVec.toNat_ofNat, Nat.shiftLeft_eq, Nat.mul_mod_mod]

/-- Below a count of 8 the power of two is itself a byte, and not 0. -/
theorem alu_shr_eq_div (va : Byte) {vb : Byte} (h : vb.toNat < 8) :
    alu .shr va vb = alu .div va (BitVec.ofNat 8 (2 ^ vb.toNat)) := by
  have hpow : (BitVec.ofNat 8 (2 ^ vb.toNat)).toNat = 2 ^ vb.toNat := by
    rw [BitVec.toNat_ofNat, Nat.mod_eq_of_lt (Nat.pow_lt_pow_right (by decide) h)]
  have hne : BitVec.ofNat 8 (2 ^ vb.toNat) ≠ 0 := fun h0 => by
    rw [h0] at hpow
    exact absurd hpow (Nat.two_pow_pos _).ne
  rw [alu_shr, alu_div va _ hne, hpow, ← Nat.shiftRight_eq_div_pow, ← BitVec.toNat_ushiftRight, BitVec.ofNat_toNat,
    BitVec.setWidth_eq]

theorem alu_error {op : AluOp} {va vb : Byte} {f : Fault} (h : alu op va vb = .error f) :
    op = .div ∧ vb = 0 ∧ f = .divideByZero := by
  obtain ⟨r, hr⟩ | ⟨hop, hvb, he⟩ := alu_cases op va vb
  · rw [hr] at h
    cases h
  · rw [he] at h
    cases h
    exact ⟨hop, hvb, rfl⟩

end Sys2Proof.Machine
end

section
/-! PROOFS. The claims about single instructions (41_control_and_data.md, 42_alu.md), each assembled from the laws above. -/

namespace Sys2Proof.Machine

/-- Settles O19. A well-formed instruction has no fault left but the zero divisor; an operand that names no register, and a
zero divisor, each fault. -/
theorem instructionCompletesExactlyWhen : Obligations.InstructionCompletesExactlyWhen := fun _ _ =>
  ⟨fun ⟨_, h⟩ => ⟨wf_of_exec_next h, divisorZero_of_exec_next h⟩, fun ⟨hwf, hdiv⟩ => exec_completes hwf hdiv⟩

/-- Settles O25, from everything an instruction that completes does. -/
theorem instructionFrame : Obligations.InstructionFrame := by
  intro i s t h
  obtain ⟨hmem, -, heng, hout, hpc⟩ := exec_next h
  refine ⟨fun a => by rw [hmem], fun j hj => exec_keeps_register h hj, fun hne => by rw [heng, if_neg hne],
    fun hne => ?_, hpc⟩
  obtain ⟨hout, -⟩ | ⟨a, -, hprn, -⟩ := hout
  · exact hout
  · exact absurd hprn (hne a)

/-- Settles O26. HLT at the program counter is run by the next step, and in HALTED nothing happens any more. -/
theorem hltHaltsTheEngine : Obligations.HltHaltsTheEngine := by
  refine ⟨rfl, fun s => ⟨_, exec_hlt s, rfl, rfl, keepsRegsAndMem_hlt s, rfl⟩, fun s hr hcode => ?_⟩
  have hstep : step s = .next ((s.setEngine .halted).advance 0) := (step_of_codeAt hr hcode).trans (exec_hlt s)
  refine ⟨_, hstep, rfl, pc_past_code hcode, keepsRegsAndMem_hlt s, rfl, ?_, step_of_halted rfl,
    fun budget => run_of_halted budget rfl⟩
  rw [run_of_running none hr]
  exact runLoop_of_halting 256 hstep rfl

/-- Settles O27, from what LDI answers at the two kinds of index and from the fetch. -/
theorem ldiLoadsItsImmediate : Obligations.LdiLoadsItsImmediate := by
  intro a b s
  refine ⟨rfl, fun ha => ?_, fun ha => ?_, step_of_codeAt, step_of_runsOff⟩
  · exact ⟨_, by rw [exec_ldi, dif_pos ha], writesReg_setReg_advance s _ b ha⟩
  · rw [exec_ldi, dif_neg (Nat.not_lt.mpr ha)]

/-- Settles O28, from what PRN answers at the two kinds of index and from the fetch. -/
theorem prnEmitsTheRegister : Obligations.PrnEmitsTheRegister := by
  intro a s
  refine ⟨rfl, fun v hv => ?_, fun ha => ⟨_, s.readReg_of_lt _ ha⟩, fun ha => ?_, step_of_codeAt, step_of_runsOff⟩
  · obtain ⟨ha, rfl⟩ := State.readReg_ok hv
    exact ⟨_, (exec_prn a s).trans (dif_pos ha), rfl, ⟨fun _ => rfl, fun _ => rfl⟩, rfl, rfl⟩
  · rw [exec_prn, dif_neg (Nat.not_lt.mpr ha)]

/-- Settles O30, from the three faults of the common form in their order and from the ALU's answer. -/
theorem aluInstructionStep : Obligations.AluInstructionStep := by
  intro op a b s hr hcode
  rw [step_of_codeAt hr hcode]
  refine ⟨exec_aluInstr_of_ge op b s, exec_aluInstr_of_lt_of_ge op s, fun va vb ha hb => ⟨?_, fun hok => ?_⟩⟩
  · rintro rfl rfl
    exact exec_aluInstr_of_alu_error ha hb (alu_div_zero va)
  · obtain ⟨r, hres⟩ := alu_ok hok
    obtain ⟨t, hexec, hwrites⟩ := exec_aluInstr_of_read ha hb hres
    exact ⟨r, t, hres, hexec, hwrites⟩

/-- Settles O31. The bytes' sum is the exact sum reduced modulo 256. -/
theorem addWrapsModulo256 : Obligations.AddWrapsModulo256 := by
  intro a b s va vb ha hb
  refine exec_aluInstr_of_read (op := .add) ha hb ?_
  rw [alu_add]
  exact congrArg Except.ok (BitVec.eq_of_toNat_eq (by simp))

/-- Settles O32, from the ALU's difference of bytes. -/
theorem subWrapsModulo256 : Obligations.SubWrapsModulo256 := by
  intro a b s va vb ha hb
  obtain ⟨t, hexec, hwrites⟩ := exec_aluInstr_of_read (op := .sub) ha hb rfl
  exact ⟨t, _, hexec, hwrites, wrapByte_toNat _⟩

/-- Settles O33: the low byte of the product, and the faults of the common form. -/
theorem mulKeepsTheLowByte : Obligations.MulKeepsTheLowByte := by
  intro a b s
  refine ⟨rfl, fun va vb ha hb => ?_, exec_aluInstr_of_ge .mul b s, exec_aluInstr_of_lt_of_ge .mul s, step_of_codeAt,
    step_of_runsOff⟩
  refine exec_aluInstr_of_read (op := .mul) ha hb ?_
  rw [alu_mul]
  exact congrArg Except.ok (BitVec.eq_of_toNat_eq (by simp))

/-- Settles O34, from the ALU's two answers for DIV. -/
theorem divIsFlooredAndFaultsOnZero : Obligations.DivIsFlooredAndFaultsOnZero := by
  intro a b s va vb ha hb
  refine ⟨fun hvb => exec_aluInstr_of_read (op := .div) ha hb (alu_div va vb hvb), ?_⟩
  rintro rfl
  exact exec_aluInstr_of_alu_error (op := .div) ha hb (alu_div_zero va)

/-- Settles O35: the ALU answers the bytes' own and, or, exclusive or, which go bit by bit. -/
theorem logicalInstructionsAreBitwise : Obligations.LogicalInstructionsAreBitwise := by
  intro a b s va vb ha hb
  obtain ⟨t₁, hand, wand⟩ := exec_aluInstr_of_read (op := .and) ha hb (alu_and va vb)
  obtain ⟨t₂, hor, wor⟩ := exec_aluInstr_of_read (op := .or) ha hb (alu_or va vb)
  obtain ⟨t₃, hxor, wxor⟩ := exec_aluInstr_of_read (op := .xor) ha hb (alu_xor va vb)
  exact ⟨⟨t₁, _, hand, wand, fun _ _ => BitVec.getLsbD_and⟩, ⟨t₂, _, hor, wor, fun _ _ => BitVec.getLsbD_or⟩,
    ⟨t₃, _, hxor, wxor, fun _ _ => BitVec.getLsbD_xor⟩⟩

/-- Settles O36: the ALU answers the bytes' own shifts by the whole count. -/
theorem shiftsUseTheWholeCount : Obligations.ShiftsUseTheWholeCount := by
  intro a b s va vb ha hb
  obtain ⟨t₁, hshl, wshl⟩ := exec_aluInstr_of_read (op := .shl) ha hb (alu_shl va vb)
  obtain ⟨t₂, hshr, wshr⟩ := exec_aluInstr_of_read (op := .shr) ha hb (alu_shr va vb)
  refine ⟨⟨t₁, _, hshl, wshl, ?_, BitVec.shiftLeft_eq_zero⟩, ⟨t₂, _, hshr, wshr, ?_, BitVec.ushiftRight_eq_zero⟩⟩
  · rw [BitVec.toNat_shiftLeft, Nat.shiftLeft_eq]
  · rw [BitVec.toNat_ushiftRight, Nat.shiftRight_eq_div_pow]

/-- Settles O37. On bytes the ALU is the ring of the integers modulo 256, and a shift a multiplication or a division by a
power of two; that an answer is the exact result modulo 256 is the one reduction. -/
theorem aluLaws : Obligations.AluLaws := by
  refine ⟨fun op va vb r => alu_eq_exact_mod, fun va vb => ⟨?_, ?_⟩, fun va vb vc => ⟨?_, ?_, ?_, ?_⟩, alu_shl_eq_mul,
    fun va vb => alu_shr_eq_div va, fun va vb hn => ⟨?_, ?_⟩, fun op va vb f => alu_error⟩
  · rw [alu_add_eq, alu_add_eq, BitVec.add_comm]
  · rw [alu_mul_eq, alu_mul_eq, BitVec.mul_comm]
  · simp only [alu_add_eq, bind, Except.bind, BitVec.add_assoc]
  · simp only [alu_mul_eq, bind, Except.bind, BitVec.mul_assoc]
  · simp only [alu_add_eq, alu_mul_eq, bind, Except.bind, BitVec.mul_add]
  · simp only [alu_add_eq, alu_sub, bind, Except.bind, BitVec.add_sub_cancel]
  · exact (alu_shl va vb).trans (congrArg Except.ok (BitVec.shiftLeft_eq_zero hn))
  · exact (alu_shr va vb).trans (congrArg Except.ok (BitVec.ushiftRight_eq_zero hn))

/-- Settles O41: a step raises it where the execution does, and an execution exactly for such a DIV. -/
theorem divideByZeroExactlyWhen : Obligations.DivideByZeroExactlyWhen := by
  intro s
  simp only [step_divideByZero_iff, exec_divideByZero_iff]
  constructor
  · rintro ⟨hr, _, hcode, a, b, rfl, hab⟩
    exact ⟨hr, a, b, hcode, hab⟩
  · rintro ⟨hr, a, b, hcode, hab⟩
    exact ⟨hr, _, hcode, a, b, rfl, hab⟩

end Sys2Proof.Machine
end

section
/-! PROOFS. The laws shared by the claims about the invariant and about the cycle (10_state.md section 4,
40_fetch_decode_dispatch.md, 60_exceptions.md section 1). -/

namespace Sys2Proof.Machine

open Sys2Proof.Safety

/-! ### The invariant -/

theorem stateInv_reset : StateInv State.reset :=
  ⟨State.reset_mem_wf, Nat.zero_le 256, fun h => nomatch h⟩

/-- A cycle keeps the invariant: it writes no memory and moves `pc` up, to 256 at most. -/
theorem stateInv_step_of_running {s t : State} (hr : s.eng = .running) (hinv : StateInv s) (h : step s = .next t) :
    StateInv t := by
  obtain ⟨hlt, hle⟩ := step_pc hr h
  exact ⟨step_mem h ▸ hinv.mem_wf, hle, fun _ => Nat.one_le_of_lt hlt⟩

theorem stateInv_run {s : State} (b : Option Nat) (hinv : StateInv s) : StateInv (run b s).2 :=
  run_induction (R := fun s t => StateInv s → StateInv t) (fun _ h => h)
    (fun _ _ _ hr h htu hs => htu (stateInv_step_of_running hr hs h)) b s hinv

/-- Only a canonical memory has to be shown where `pc` and `ENG` are as they were. -/
theorem stateInv_withMem {s : State} {m : Memory} (hinv : StateInv s) (hm : m.wf) : StateInv (s.withMem m) :=
  ⟨hm, hinv.pc_le, hinv.halted_pc⟩

theorem stateInv_setReg {s : State} (hinv : StateInv s) (i : Nat) (v : Byte) (h : i < 8) : StateInv (s.setReg i v h) :=
  ⟨hinv.mem_wf, hinv.pc_le, hinv.halted_pc⟩

theorem stateInv_writeMemory {s : State} (hinv : StateInv s) (a : Nat) (v : Byte) :
    StateInv (hostStep (.writeMemory a v) s).2 := by
  by_cases h : a < 256
  · rw [hostStep_writeMemory_of_lt s a v h]
    exact stateInv_withMem hinv (s.mem.wf_write a v hinv.mem_wf h)
  · rwa [hostStep_writeMemory_of_ge s a v (Nat.le_of_not_lt h)]

theorem stateInv_writeRegister {s : State} (hinv : StateInv s) (i : Nat) (v : Byte) :
    StateInv (hostStep (.writeRegister i v) s).2 := by
  by_cases h : i < 8
  · rw [hostStep_writeRegister_of_lt s i v h]
    exact stateInv_setReg hinv i v h
  · rwa [hostStep_writeRegister_of_ge s i v (Nat.le_of_not_lt h)]

theorem stateInv_loadProgram {s : State} (hinv : StateInv s) (bytes : List Byte) :
    StateInv (hostStep (.loadProgram bytes) s).2 := by
  by_cases h : bytes.length ≤ 256
  · rw [hostStep_loadProgram_of_le s bytes h]
    exact stateInv_withMem hinv (s.mem.wf_writeBytes bytes 0 hinv.mem_wf)
  · rwa [hostStep_loadProgram_of_gt s bytes (Nat.lt_of_not_le h)]

/-! ### The bytes at the program counter -/

/-- The bytes stand at the program counter, all of them inside memory. -/
def BytesAt (s : State) (bytes : List Byte) : Prop :=
  ∀ k v, bytes[k]? = some v → s.memRead (s.pc.toNat + k) = .ok v

theorem bytesAt_encode (s : State) (i : Instr) : BytesAt s (encode i) ↔ CodeAt s i := Iff.rfl

theorem BytesAt.left {s : State} {xs ys : List Byte} (h : BytesAt s (xs ++ ys)) : BytesAt s xs := fun k v hv =>
  h k v (by rw [List.getElem?_append_left (List.getElem?_eq_some_iff.mp hv).1, hv])

/-- Past the first bytes stand the others, where memory is the same. -/
theorem BytesAt.right {s t : State} {xs ys : List Byte} (h : BytesAt s (xs ++ ys)) (hmem : t.mem = s.mem)
    (hpc : t.pc.toNat = s.pc.toNat + xs.length) : BytesAt t ys := fun k v hv => by
  have hread := h (xs.length + k) v (by rw [List.getElem?_append_right (Nat.le_add_right _ _), Nat.add_sub_cancel_left, hv])
  rwa [State.memRead, hmem, hpc, Nat.add_assoc]

/-- The snapshot's bytes are those that stand at `pc`, as many of three as exist (60_exceptions.md R135). -/
theorem State.codeBytes_eq (s : State) :
    s.codeBytes = (List.range (min 3 (256 - s.pc.toNat))).map (fun k => s.mem.read (s.pc.toNat + k)) := by
  obtain h | h | h | h : s.pc.toNat + 2 < 256 ∨ s.pc.toNat = 254 ∨ s.pc.toNat = 255 ∨ 256 ≤ s.pc.toNat := by omega
  · have hcount : min 3 (256 - s.pc.toNat) = 3 := by omega
    have h0 : s.pc.toNat < 256 := by omega
    have h1 : s.pc.toNat + 1 < 256 := by omega
    simp [State.codeBytes, hcount, List.range_succ, h0, h1, h]
  · simp [State.codeBytes, h, List.range_succ]
  · simp [State.codeBytes, h, List.range_succ]
  · have hcount : min 3 (256 - s.pc.toNat) = 0 := by omega
    have h0 : ¬ s.pc.toNat < 256 := by omega
    have h1 : ¬ s.pc.toNat + 1 < 256 := by omega
    have h2 : ¬ s.pc.toNat + 2 < 256 := by omega
    simp [State.codeBytes, hcount, h0, h1, h2]

theorem State.length_codeBytes (s : State) : s.codeBytes.length = min 3 (256 - s.pc.toNat) := by
  rw [s.codeBytes_eq, List.length_map, List.length_range]

theorem bytesAt_codeBytes (s : State) : BytesAt s s.codeBytes := by
  intro k v h
  obtain ⟨hk, rfl⟩ := List.getElem?_eq_some_iff.mp h
  have hlt := s.length_codeBytes ▸ hk
  rw [s.memRead_of_lt _ (by omega)]
  simp [s.codeBytes_eq]

/-- An instruction that is read from the bytes at `pc` stands there. -/
theorem codeAt_of_decode {s : State} {i : Instr} {bytes rest : List Byte} (hbytes : BytesAt s bytes)
    (h : decode bytes = .ok (i, rest)) : CodeAt s i := by
  rw [eq_encode_append_of_decode h] at hbytes
  exact (bytesAt_encode s i).mp hbytes.left

/-- A load that succeeds had an image that fits, and replaced memory alone. -/
theorem State.loadProgram_ok {s t : State} {bytes : List Byte} (h : s.loadProgram bytes = .ok t) :
    bytes.length ≤ 256 ∧ t = s.withMem (s.mem.writeBytes 0 bytes) := by
  by_cases hfit : bytes.length ≤ 256
  · rw [s.loadProgram_of_le bytes hfit] at h
    exact ⟨hfit, (Except.ok.inj h).symm⟩
  · rw [s.loadProgram_of_gt bytes (Nat.lt_of_not_le hfit)] at h
    cases h

/-- A loaded image stands at the address 0, where engine reset sets `pc`. -/
theorem bytesAt_engineReset_of_loadProgram {s t : State} {bytes : List Byte} (h : s.loadProgram bytes = .ok t) :
    BytesAt t.engineReset bytes := by
  obtain ⟨hfit, rfl⟩ := State.loadProgram_ok h
  intro k v hv
  obtain ⟨hk, rfl⟩ := List.getElem?_eq_some_iff.mp hv
  exact (congrArg _ (Nat.zero_add k)).trans (s.memRead_withMem_writeBytes_zero hfit hk)

/-! ### The faults of a step -/

/-- A step raises InvalidOpcode exactly for a byte at `pc` that the table does not hold (60_exceptions.md R122). -/
theorem step_invalidOpcode_iff (s : State) (byte : Byte) (pc : Nat) :
    step s = .fault (.invalidOpcode byte pc) ↔
      s.eng = .running ∧ pc = s.pc.toNat ∧ pc < 256 ∧ byte = s.mem.read pc ∧ lookupOpcode byte = none := by
  constructor
  · intro h
    obtain ⟨-, hstep⟩ | ⟨-, i, -, hstep⟩ | ⟨-, -, hstep⟩ | ⟨hr, hpc, hl, hstep⟩ | ⟨-, _, -, -, -, hstep⟩ := step_cases s
    · rw [hstep] at h
      cases h
    · exact absurd (hstep ▸ h) (exec_ne_invalidOpcode i s byte pc)
    · rw [hstep] at h
      cases h
    · rw [hstep] at h
      cases h
      exact ⟨hr, rfl, hpc, rfl, hl⟩
    · rw [hstep] at h
      cases h
  · rintro ⟨hr, rfl, hpc, rfl, hl⟩
    exact step_of_illegal hr hpc hl

/-- The ways in which a step raises OutOfBounds: the fetch of the opcode, the fetch of an operand, and a register operand
(60_exceptions.md R121). -/
theorem step_outOfBounds_cases {s : State} {kind : AddressKind} {index : Nat}
    (h : step s = .fault (.outOfBounds kind index)) :
    (kind = .memory ∧ index = s.pc.toNat ∧ 256 ≤ s.pc.toNat) ∨ (kind = .memory ∧ index = 256 ∧ ∃ i, RunsOffTheEnd s i) ∨
      ∃ i, CodeAt s i ∧ exec i s = .fault (.outOfBounds kind index) := by
  obtain ⟨-, hstep⟩ | ⟨-, i, hcode, hstep⟩ | ⟨-, hpc, hstep⟩ | ⟨-, -, -, hstep⟩ | ⟨-, row, hpc, hl, hend, hstep⟩ :=
    step_cases s
  · rw [hstep] at h
    cases h
  · exact .inr (.inr ⟨i, hcode, hstep ▸ h⟩)
  · rw [hstep] at h
    cases h
    exact .inl ⟨rfl, rfl, hpc⟩
  · rw [hstep] at h
    cases h
  · rw [hstep] at h
    cases h
    obtain ⟨i, hop, harity⟩ := exists_instr_of_lookupOpcode hl
    exact .inr (.inl ⟨rfl, rfl, i, hpc, hop.symm, harity ▸ hend⟩)

theorem hostStep_readRegister_of_ge (s : State) (i : Nat) (h : 8 ≤ i) :
    hostStep (.readRegister i) s = (.fault (.outOfBounds .register i), s) := by
  simp [hostStep, s.readReg_of_ge i h, replyRead]

/-! ### Bytes placed at the program counter -/

/-- A host's write that succeeds was inside memory, and replaced memory alone. -/
theorem hostStep_writeMemory_done {s t : State} {a : Nat} {v : Byte} (h : hostStep (.writeMemory a v) s = (.done, t)) :
    a < 256 ∧ t = s.withMem (s.mem.write a v) := by
  by_cases ha : a < 256
  · rw [hostStep_writeMemory_of_lt s a v ha] at h
    cases h
    exact ⟨ha, rfl⟩
  · rw [hostStep_writeMemory_of_ge s a v (Nat.le_of_not_lt ha)] at h
    cases h

/-- The byte missing from an instruction's code, once written, completes it. -/
theorem codeAt_withMem_write {s : State} {i : Instr} {k : Nat} {v : Byte} (hk : (encode i)[k]? = some v)
    (hrest : ∀ j w, j ≠ k → (encode i)[j]? = some w → s.memRead (s.pc.toNat + j) = .ok w) (ha : s.pc.toNat + k < 256) :
    CodeAt (s.withMem (s.mem.write (s.pc.toNat + k) v)) i := by
  intro j w hw
  refine (s.memRead_withMem_write v ha (s.pc.toNat + j)).trans ?_
  by_cases hj : j = k
  · subst hj
    rw [if_pos rfl, Option.some.inj (hk.symm.trans hw)]
  · rw [if_neg (by omega), hrest j w hj hw]

theorem length_tableBytes (nbits w : Nat) : (tableBytes nbits w).length = 3 := rfl

/-- Where three bytes fit at `pc`, a placed word's bytes are read there. -/
theorem bytesAt_withFetchWord {s : State} (nbits w : Nat) (hfit : s.pc.toNat + 2 < 256) :
    BytesAt (s.withFetchWord nbits w) (tableBytes nbits w) := by
  intro k v h
  have hk : k < 3 := (List.getElem?_eq_some_iff.mp h).1
  have hin : s.pc.toNat + k < 256 := by omega
  refine (State.memRead_of_lt _ _ hin).trans ?_
  show Except.ok ((s.mem.writeBytes s.pc.toNat (tableBytes nbits w)).read (s.pc.toNat + k)) = _
  rw [Memory.read_writeBytes, length_tableBytes, if_pos (by omega), Nat.add_sub_cancel_left, List.getD_eq_getElem?_getD, h,
    Option.getD_some]

theorem decode_of_decodeTableWord {nbits w : Nat} {i : Instr} (h : decodeTableWord nbits w = some i) :
    ∃ rest, decode (tableBytes nbits w) = .ok (i, rest) := by
  unfold decodeTableWord at h
  cases hd : decode (tableBytes nbits w) with
  | ok p =>
    rw [hd] at h
    cases h
    exact ⟨p.2, rfl⟩
  | error e =>
    rw [hd] at h
    cases h

end Sys2Proof.Machine
end

section
/-! PROOFS. The claims about the invariant, the cycle and its faults, each assembled from the laws above. -/

namespace Sys2Proof.Machine

/-- Settles O2. Engine reset writes `pc` and `ENG` only; RUNNING is what a step needs. -/
theorem engineResetKeepsMemoryRegistersAndOutput : Obligations.EngineResetKeepsMemoryRegistersAndOutput := fun s =>
  ⟨s.engineReset, rfl, rfl, rfl, fun _ => rfl, fun _ => rfl, rfl, fun _ hcode => step_of_codeAt rfl hcode⟩

/-- Settles O8, from when a step raises InvalidOpcode; a run from such a byte ends in its first cycle. -/
theorem invalidOpcodeExactlyWhen : Obligations.InvalidOpcodeExactlyWhen := by
  refine ⟨fun s byte pc => ?_, fun s t byte n hno hload => ?_⟩
  · rw [step_invalidOpcode_iff, lookupOpcode_eq_none_iff]
  · obtain ⟨-, hread⟩ := State.memRead_ok (bytesAt_engineReset_of_loadProgram hload 0 byte rfl)
    obtain ⟨-, rfl⟩ := State.loadProgram_ok hload
    have hstep : step (s.withMem (s.mem.writeBytes 0 [byte])).engineReset = .fault (.invalidOpcode byte 0) :=
      (step_invalidOpcode_iff _ _ _).mpr
        ⟨rfl, rfl, by decide, hread.symm, (lookupOpcode_eq_none_iff byte).mpr hno⟩
    exact ⟨(run_of_running _ rfl).trans (runLoop_of_fault n hstep), rfl⟩

/-- Settles O10: the bytes at `pc` begin with the encoding of what is read from them, which then stands there. -/
theorem stepRunsTheDecodedInstruction : Obligations.StepRunsTheDecodedInstruction :=
  ⟨fun s _ _ hr h => step_of_codeAt hr (codeAt_of_decode (bytesAt_codeBytes s) h),
    fun _ _ hr hcode => step_of_codeAt hr hcode⟩

/-- Settles O14, from where a completed cycle moves `pc`. -/
theorem completedCycleAdvancesPc : Obligations.CompletedCycleAdvancesPc := by
  intro s t hr h
  obtain ⟨i, hcode, hpc⟩ := step_pc_past_code hr h
  exact ⟨i, hcode, hpc, (step_pc hr h).2⟩

/-- Settles O15: memory is empty, `pc` is 0, and the engine is RUNNING. -/
theorem invariantAtPowerOn : Obligations.InvariantAtPowerOn := stateInv_reset

/-- Settles O16: in HALTED a step changes nothing, and in RUNNING it is a cycle. -/
theorem stepKeepsTheInvariant : Obligations.StepKeepsTheInvariant := by
  intro s t hinv h
  cases he : s.eng with
  | halted =>
    rw [step_of_halted he] at h
    cases h
    exact hinv
  | running => exact stateInv_step_of_running he hinv h

/-- Settles O17, operation by operation; a run keeps the invariant by induction over its cycles. -/
theorem hostOperationsKeepTheInvariant : Obligations.HostOperationsKeepTheInvariant := by
  intro op s hinv
  cases op with
  | powerOn => exact stateInv_reset
  | engineReset => exact ⟨hinv.mem_wf, Nat.zero_le 256, fun h => nomatch h⟩
  | run b => exact stateInv_run b hinv
  | readMemory a => rwa [hostStep_readMemory_state]
  | writeMemory a v => exact stateInv_writeMemory hinv a v
  | readRegister i => rwa [hostStep_readRegister_state]
  | writeRegister i v => exact stateInv_writeRegister hinv i v
  | loadProgram bytes => exact stateInv_loadProgram hinv bytes
  | snapshot => exact hinv

/-- Settles O40. The invariant makes 256 the only address above memory at which the engine can fetch; the accessors' clauses
are what each answers on its two sides of the range. -/
theorem outOfBoundsArisesInThreeWays : Obligations.OutOfBoundsArisesInThreeWays := by
  refine ⟨fun s kind index hinv => ⟨fun h => ⟨running_of_step_fault h, ?_⟩, ?_⟩, ?_, ?_, ?_, ?_⟩
  · obtain ⟨hkind, hindex, hpc⟩ | hend | ⟨i, hcode, hexec⟩ := step_outOfBounds_cases h
    · have hpc : s.pc.toNat = 256 := Nat.le_antisymm hinv.pc_le hpc
      exact .inl ⟨hkind, hindex.trans hpc, hpc⟩
    · exact .inr (.inl hend)
    · obtain ⟨hkind, r, hfind, rfl⟩ := (exec_outOfBounds_iff i s kind index).mp hexec
      have hbad : 8 ≤ r.toNat := by simpa using List.find?_some hfind
      exact .inr (.inr ⟨hkind, hbad, Nat.le_of_lt_succ r.isLt, i, r, hcode, hfind, rfl⟩)
  · rintro ⟨hr, ⟨rfl, rfl, hpc⟩ | ⟨rfl, rfl, i, hend⟩ | ⟨rfl, -, -, i, r, hcode, hfind, rfl⟩⟩
    · exact hpc ▸ step_of_pc_outside hr hpc.ge
    · exact step_of_runsOff hr (.inr hend)
    · rw [step_of_codeAt hr hcode, exec_of_bad_operand s hfind]
  · exact fun s a ha => ⟨hostStep_readMemory_of_ge s a ha, fun v => hostStep_writeMemory_of_ge s a v ha⟩
  · exact fun s i hi => ⟨hostStep_readRegister_of_ge s i hi, fun v => hostStep_writeRegister_of_ge s i v hi⟩
  · exact fun s a ha => ⟨by rw [hostStep_readMemory_of_lt s a ha], fun v => by rw [hostStep_writeMemory_of_lt s a v ha]⟩
  · exact fun s i hi =>
      ⟨⟨_, by rw [hostStep_readRegister_of_lt s i hi]⟩, fun v => by rw [hostStep_writeRegister_of_lt s i v hi]⟩

/-- Settles O43. The written byte completes the instruction's code, or stands at `pc` as the opcode that the next fetch
finds. -/
theorem fetchSeesTheHostsWrite : Obligations.FetchSeesTheHostsWrite := by
  refine ⟨fun s t i k v hr hk hrest h => ?_, fun s t v hr h => ?_⟩
  · obtain ⟨ha, rfl⟩ := hostStep_writeMemory_done h
    exact step_of_codeAt hr (codeAt_withMem_write hk hrest ha)
  · obtain ⟨ha, rfl⟩ := hostStep_writeMemory_done h
    have hread : (s.mem.write s.pc.toNat v).read s.pc.toNat = v := by rw [Memory.read_write, if_pos rfl]
    refine ⟨fun i hop hend => step_of_runsOff hr (.inr ⟨ha, hread.trans hop.symm, hend⟩), fun hl => ?_⟩
    exact (step_invalidOpcode_iff _ _ _).mpr ⟨hr, rfl, ha, hread.symm, hl⟩

/-- Settles O49, from the bytes that stand at `pc`. -/
theorem snapshotShowsTheNextBytes : Obligations.SnapshotShowsTheNextBytes := fun s =>
  ⟨s.snapshot, rfl, rfl, rfl, s.length_codeBytes, bytesAt_codeBytes s⟩

/-- Settles O55: the placed bytes are those the word's instruction is read from, so it stands at `pc`. -/
theorem placedWordIsWhatRuns : Obligations.PlacedWordIsWhatRuns := by
  intro s nbits w i hfit h
  obtain ⟨rest, hd⟩ := decode_of_decodeTableWord h
  exact step_of_codeAt rfl (codeAt_of_decode (bytesAt_withFetchWord nbits w hfit) hd)

end Sys2Proof.Machine
end

section
/-! PROOFS. The laws shared by the claims about the host's operations (70_reset_and_hazards.md) and about the emitted text
(41_control_and_data.md R93). -/

namespace Sys2Proof.Machine

/-! ### What a load leaves as it was -/

/-- A load changes no checked read above the image: inside memory the byte is what it was, outside the fault is the
same. -/
theorem State.memRead_withMem_writeBytes_above (s : State) {bytes : List Byte} {a : Nat} (h : bytes.length ≤ a) :
    (s.withMem (s.mem.writeBytes 0 bytes)).memRead a = s.memRead a := by
  by_cases ha : a < 256
  · rw [State.memRead_of_lt _ a ha, s.memRead_of_lt a ha, State.withMem_mem, Memory.read_writeBytes, if_neg (by omega)]
  · rw [State.memRead_of_ge _ a (Nat.le_of_not_lt ha), s.memRead_of_ge a (Nat.le_of_not_lt ha)]

/-! ### Canonical memories -/

/-- A listed cell reads as its byte: the addresses above it rise, so no entry before it is at its address. -/
theorem Memory.read_of_mem {m : Memory} (hsorted : m.Pairwise (fun c d => c.1 < d.1)) {c : Host.Cell} (hc : c ∈ m) :
    m.read c.1 = c.2 := by
  induction m with
  | nil => cases hc
  | cons d m ih =>
    obtain ⟨hd, hm⟩ := List.pairwise_cons.mp hsorted
    obtain rfl | hc := List.mem_cons.mp hc
    · exact if_pos rfl
    · rw [Memory.read, if_neg (hd c hc).ne]
      exact ih hm hc

/-- An address that does not read as an unlisted one is listed, with the byte it reads as. -/
theorem Memory.mem_of_read_ne {m : Memory} {a : Nat} (h : m.read a ≠ Memory.unlisted) : (a, m.read a) ∈ m := by
  induction m with
  | nil => exact absurd rfl h
  | cons d m ih =>
    rw [Memory.read] at h ⊢
    by_cases hd : d.1 = a
    · subst hd
      rw [if_pos rfl]
      exact List.mem_cons_self
    · rw [if_neg hd] at h ⊢
      exact List.mem_cons_of_mem d (ih h)

/-- What a canonical memory lists is what its reads inside the address space say. -/
theorem Memory.mem_iff_read {m : Memory} (h : m.wf) (c : Host.Cell) :
    c ∈ m ↔ c.1 < 256 ∧ m.read c.1 = c.2 ∧ c.2 ≠ Memory.unlisted := by
  obtain ⟨hsorted, hcells⟩ := h
  constructor
  · intro hc
    exact ⟨(hcells c hc).1, Memory.read_of_mem hsorted hc, (hcells c hc).2⟩
  · rintro ⟨-, hread, hne⟩
    have hmem : (c.1, m.read c.1) ∈ m := Memory.mem_of_read_ne (hread ▸ hne)
    rwa [hread] at hmem

/-! ### The emitted text -/

/-- The decimal numeral of a number other than 0 has no leading zero: its first digit is that of the tenth part, down to
a single digit. -/
theorem head?_toDigits_ne_zero (n : Nat) (hn : n ≠ 0) : (Nat.toDigits 10 n).head? ≠ some '0' := by
  induction n using Nat.strongRecOn with
  | ind n ih =>
    by_cases hlt : n < 10
    · have hdigit : ∀ d < 10, d ≠ 0 → d.digitChar ≠ '0' := by decide
      rw [Nat.toDigits_of_lt_base hlt, List.head?_cons, Ne, Option.some.injEq]
      exact hdigit n hlt hn
    · have hge : 10 ≤ n := Nat.le_of_not_lt hlt
      rw [Nat.toDigits_of_base_le (by decide) hge, List.head?_append_of_ne_nil _ Nat.toDigits_ne_nil]
      exact ih (n / 10) (by omega) (by omega)

theorem outText_append_singleton (lineTerm : List Char) (out : List Byte) (v : Byte) :
    outText lineTerm (out ++ [v]) = outText lineTerm out ++ decimal v ++ lineTerm := by
  simp [outText]

end Sys2Proof.Machine
end

section
/-! PROOFS. The claims about the host's operations, memory's canonical form and the emitted text, each assembled
from the laws above. -/

namespace Sys2Proof.Machine

/-- Settles O1, field by field. -/
theorem powerOnState : Obligations.PowerOnState :=
  ⟨fun a ha => State.reset.memRead_of_lt a ha, State.reset_readReg, rfl, rfl, rfl, fun _ => rfl⟩

/-- Settles O29: the numeral is the library's decimal one, whose digits read back as the number. -/
theorem emittedTextIsDecimalLines : Obligations.EmittedTextIsDecimalLines := by
  refine ⟨outText_append_singleton, fun _ => rfl, fun v => ⟨?_, ?_, Nat.toDigits_ne_nil, fun hv => ?_, rfl⟩⟩
  · exact Nat.ofDigitChars_eq_foldl.symm.trans Nat.ofDigitChars_ten_toDigits
  · exact List.all_eq_true.mpr fun c hc => Nat.isDigit_of_mem_toDigits (by decide) (by decide) hc
  · exact head?_toDigits_ne_zero v.toNat fun h => hv (BitVec.eq_of_toNat_eq h)

/-- Settles O47, from what a load that succeeds replaced and what one that fails answers. -/
theorem loadProgramChangesNothingElse : Obligations.LoadProgramChangesNothingElse := by
  intro s bytes
  refine ⟨fun t h => ?_, hostStep_loadProgram_of_gt s bytes⟩
  obtain ⟨-, rfl⟩ := State.loadProgram_ok h
  exact ⟨fun a ha => s.memRead_withMem_writeBytes_above ha, rfl, rfl, rfl, rfl⟩

/-- Settles O48: canonical memories that read the same list the same cells, in the order of their addresses. -/
theorem equalReadsAreEqualMemories : Obligations.EqualReadsAreEqualMemories := by
  intro m m' h h' hread
  refine List.Pairwise.eq_of_mem_iff h.1 h'.1 fun c => ?_
  rw [Memory.mem_iff_read h, Memory.mem_iff_read h']
  exact and_congr_right fun hc => by rw [hread c.1 hc]

/-- Settles O57, from what each accessor answers on the two sides of its range. -/
theorem hostAccessorsChangeOnePlace : Obligations.HostAccessorsChangeOnePlace := by
  refine ⟨fun s a v ha => ?_, fun s j v hj => ?_, fun s a => ?_, fun s a v => ⟨fun ha => ?_, fun ha => ?_⟩⟩
  · refine ⟨_, hostStep_writeMemory_of_lt s a v ha, ?_, fun b hb => ?_, rfl, rfl, rfl, rfl⟩
    · exact (s.memRead_withMem_write v ha a).trans (if_pos rfl)
    · exact (s.memRead_withMem_write v ha b).trans (if_neg hb)
  · refine ⟨_, hostStep_writeRegister_of_lt s j v hj, ?_, fun k hk => ?_, rfl, rfl, rfl, rfl⟩
    · rw [State.readReg_setReg, if_pos rfl]
    · rw [State.readReg_setReg, if_neg hk]
  · exact ⟨hostStep_readMemory_state s a, hostStep_readRegister_state s a⟩
  · rw [hostStep_writeMemory_of_ge s a v ha]
  · rw [hostStep_writeRegister_of_ge s a v ha]

end Sys2Proof.Machine
end

section
/-! PROOFS. The laws shared by the claims about runs (40_fetch_decode_dispatch.md section 5, 70_reset_and_hazards.md
section 6): one cycle of the run loop, the states in which it ends, budgets one after another, and straight-line code. -/

namespace Sys2Proof.Machine

open Sys2Proof.Safety

/-! ### One cycle of the run loop -/

theorem step_ne_refused (s : State) (r : Refusal) : step s ≠ .refused r := by
  obtain ⟨-, hstep⟩ | ⟨-, i, -, hstep⟩ | ⟨-, -, hstep⟩ | ⟨-, -, -, hstep⟩ | ⟨-, _, -, -, -, hstep⟩ := step_cases s
  · simp [hstep]
  · rw [hstep]
    exact exec_ne_refused i s r
  all_goals simp [hstep]

/-- Everything a cycle of the run loop can do: it ends the loop with a fault or a HLT, or the loop goes on with one cycle
less (40_fetch_decode_dispatch.md R76). -/
theorem runLoop_cycle_cases (s : State) :
    (∃ f, step s = .fault f ∧ ∀ n, runLoop (n + 1) s = (.faulted f, s)) ∨
    (∃ t, step s = .next t ∧ t.eng = .halted ∧ ∀ n, runLoop (n + 1) s = (.halted, t)) ∨
    ∃ t, step s = .next t ∧ t.eng = .running ∧ ∀ n, runLoop (n + 1) s = runLoop n t := by
  cases h : step s with
  | fault f => exact .inl ⟨f, rfl, fun n => runLoop_of_fault n h⟩
  | refused r => exact absurd h (step_ne_refused s r)
  | next t =>
    cases ht : t.eng with
    | halted => exact .inr (.inl ⟨t, rfl, ht, fun n => runLoop_of_halting n h ht⟩)
    | running => exact .inr (.inr ⟨t, rfl, ht, fun n => runLoop_of_running n h ht⟩)

/-! ### The states in which a run ends -/

/-- What is known of the state `t` in which the run loop answers a result: suspended, it is RUNNING; faulted, it is the
state before the faulting cycle; halted, the state after a HLT's cycle. -/
inductive EndsIn (t : State) : RunResult → Prop
  | suspended (hrun : t.eng = .running) : EndsIn t .suspended
  | faulted (f : Fault) (hstep : step t = .fault f) : EndsIn t (.faulted f)
  | halted (u : State) (hrun : u.eng = .running) (hstep : step u = .next t) (hhalt : t.eng = .halted) : EndsIn t .halted

theorem runLoop_endsIn (n : Nat) {s : State} (hr : s.eng = .running) : EndsIn (runLoop n s).2 (runLoop n s).1 := by
  induction n generalizing s with
  | zero => exact .suspended hr
  | succ n ih =>
    obtain ⟨f, hstep, hloop⟩ | ⟨t, hstep, ht, hloop⟩ | ⟨t, -, ht, hloop⟩ := runLoop_cycle_cases s
    · rw [hloop]
      exact .faulted f hstep
    · rw [hloop]
      exact .halted s hr hstep ht
    · rw [hloop]
      exact ih ht

/-- One invocation of the run loop: in HALTED it answers at once, otherwise it ends in such a state. -/
theorem run_endsIn (b : Option Nat) (s : State) :
    (s.eng = .halted ∧ run b s = (.alreadyHalted, s)) ∨ (s.eng = .running ∧ EndsIn (run b s).2 (run b s).1) := by
  cases he : s.eng with
  | halted => exact .inl ⟨rfl, run_of_halted b he⟩
  | running =>
    rw [run_of_running b he]
    exact .inr ⟨rfl, runLoop_endsIn _ he⟩

theorem EndsIn.of_run {b : Option Nat} {s t : State} {r : RunResult} (h : run b s = (r, t)) (hne : r ≠ .alreadyHalted) :
    EndsIn t r := by
  obtain ⟨-, hhalted⟩ | ⟨-, hend⟩ := run_endsIn b s
  · rw [hhalted] at h
    cases h
    exact absurd rfl hne
  · rwa [h] at hend

/-- A cycle that halts leaves `pc` at the address after the HLT byte it fetched (40_fetch_decode_dispatch.md R77). -/
theorem step_halting {u t : State} (hr : u.eng = .running) (hstep : step u = .next t) (hhalt : t.eng = .halted) :
    t.pc.toNat = u.pc.toNat + 1 ∧ t.mem.read u.pc.toNat = 0x01 := by
  have hcode := (step_halts_iff hr hstep).mp hhalt
  obtain ⟨i, hi, hpc⟩ := step_pc_past_code hr hstep
  cases codeAt_unique hcode hi
  rw [step_mem hstep]
  exact ⟨hpc, codeAt_opcode hcode⟩

/-! ### Budgets one after another -/

/-- A suspended run loop, invoked again, goes on as the undivided one. -/
theorem runLoop_add_of_suspended {m : Nat} {s t : State} (h : runLoop m s = (.suspended, t)) (n : Nat) :
    runLoop (m + n) s = runLoop n t := by
  induction m generalizing s with
  | zero =>
    cases h
    rw [Nat.zero_add]
  | succ m ih =>
    rw [Nat.succ_add]
    obtain ⟨f, -, hloop⟩ | ⟨u, -, -, hloop⟩ | ⟨u, -, -, hloop⟩ := runLoop_cycle_cases s
    · rw [hloop] at h
      cases h
    · rw [hloop] at h
      cases h
    · rw [hloop] at h ⊢
      exact ih h

/-- More budget changes nothing for a run loop that ended within its own. -/
theorem runLoop_add_of_ended {m : Nat} {s : State} (h : (runLoop m s).1 ≠ .suspended) (n : Nat) :
    runLoop (m + n) s = runLoop m s := by
  induction m generalizing s with
  | zero => exact absurd rfl h
  | succ m ih =>
    rw [Nat.succ_add]
    obtain ⟨f, -, hloop⟩ | ⟨u, -, -, hloop⟩ | ⟨u, -, -, hloop⟩ := runLoop_cycle_cases s
    · rw [hloop, hloop]
    · rw [hloop, hloop]
    · rw [hloop] at h
      rw [hloop, hloop, ih h]

/-- Every completed cycle moves `pc` up, to 256 at most, where the next one faults: a budget above the distance of `pc`
to 256 is never used up (40_fetch_decode_dispatch.md R80). -/
theorem runLoop_ends {n : Nat} {s : State} (hr : s.eng = .running) (hn : 256 - s.pc.toNat < n) :
    (runLoop n s).1 ≠ .suspended := by
  induction n generalizing s with
  | zero => omega
  | succ n ih =>
    obtain ⟨f, -, hloop⟩ | ⟨t, -, -, hloop⟩ | ⟨t, hstep, ht, hloop⟩ := runLoop_cycle_cases s
    · simp [hloop]
    · simp [hloop]
    · obtain ⟨hlt, hle⟩ := step_pc hr hstep
      rw [hloop]
      exact ih ht (by omega)

theorem runLoop_enoughCycles_ends {s : State} (hr : s.eng = .running) : (runLoop enoughCycles s).1 ≠ .suspended :=
  runLoop_ends hr (Nat.lt_succ_of_le (Nat.sub_le 256 _))

/-! ### Straight-line code -/

/-- An instruction of straight-line code completes in every state: it is well-formed, and neither HLT nor DIV. -/
def StraightLine (i : Instr) : Prop := i.wf = true ∧ i ≠ .hlt ∧ ∀ a b, i ≠ .div a b

/-- A straight-line instruction at the program counter is run by the next step, which leaves the engine RUNNING behind
it. -/
theorem step_of_straightLine {s : State} {i : Instr} (hr : s.eng = .running) (hi : StraightLine i) (hcode : CodeAt s i) :
    ∃ t, step s = .next t ∧ t.eng = .running ∧ t.mem = s.mem ∧ t.pc.toNat = s.pc.toNat + (encode i).length := by
  obtain ⟨hwf, hhlt, hdiv⟩ := hi
  have hzero : divisorZero s i = false := Bool.eq_false_iff.mpr fun hz => by
    obtain ⟨a, b, hab, -⟩ := (divisorZero_eq_true_iff s i).mp hz
    exact hdiv a b hab
  obtain ⟨t, hexec⟩ := exec_completes hwf hzero
  obtain ⟨hmem, -, heng, -, hpc⟩ := exec_next hexec
  refine ⟨t, (step_of_codeAt hr hcode).trans hexec, ?_, hmem, ?_⟩
  · rw [heng, if_neg hhlt, hr]
  · rw [hpc, pc_past_code hcode, encode_length]

/-- Straight-line code with a HLT behind it: any budget is used up on the way, or the loop runs to the HLT. -/
theorem runLoop_straightLine {is : List Instr} (his : ∀ i ∈ is, StraightLine i) (n : Nat) {s : State}
    (hr : s.eng = .running) (hbytes : BytesAt s (is.flatMap encode ++ encode .hlt)) :
    (runLoop n s).1 = .suspended ∨
      ∃ u, runLoop n s = (.halted, u) ∧ u.pc.toNat = s.pc.toNat + (is.flatMap encode).length + 1 := by
  induction n generalizing is s with
  | zero => exact .inl rfl
  | succ n ih =>
    cases is with
    | nil =>
      have hcode : CodeAt s .hlt := (bytesAt_encode s .hlt).mp hbytes
      exact .inr ⟨_, runLoop_of_halting n ((step_of_codeAt hr hcode).trans (exec_hlt s)) rfl, pc_past_code hcode⟩
    | cons i is =>
      rw [List.flatMap_cons, List.append_assoc] at hbytes
      have hcode : CodeAt s i := (bytesAt_encode s i).mp hbytes.left
      obtain ⟨t, hstep, ht, hmem, hpc⟩ := step_of_straightLine hr (his i List.mem_cons_self) hcode
      rw [runLoop_of_running n hstep ht, List.flatMap_cons, List.length_append, ← Nat.add_assoc, ← hpc]
      exact ih (fun j hj => his j (List.mem_cons_of_mem i hj)) ht (hbytes.right hmem hpc)

end Sys2Proof.Machine
end

section
/-! PROOFS. The claims about runs (40_fetch_decode_dispatch.md, 70_reset_and_hazards.md), each assembled from the laws
above. -/

namespace Sys2Proof.Machine

/-- Settles O18. No step is refused, and a run ends in a state of another kind. -/
theorem nothingIsRefused : Obligations.NothingIsRefused := by
  refine ⟨step_ne_refused, fun b s r h => ?_⟩
  have hend : EndsIn (run b s).2 (.refused r) := EndsIn.of_run (Prod.ext h rfl) (by simp)
  cases hend

/-- Settles O50: 257 cycles are never used up, so more of them change nothing. -/
theorem everyRunEnds : Obligations.EveryRunEnds := by
  refine ⟨fun s => ?_, fun s n hn => ?_⟩
  · obtain ⟨-, hhalted⟩ | ⟨hr, hend⟩ := run_endsIn none s
    · exact .inl (by rw [hhalted])
    · have hne : (run none s).1 ≠ .suspended := by
        rw [run_of_running none hr]
        exact runLoop_enoughCycles_ends hr
      generalize (run none s).1 = result at hend hne ⊢
      cases hend with
      | suspended => exact absurd rfl hne
      | faulted f => exact .inr (.inr ⟨f, rfl⟩)
      | halted => exact .inr (.inl rfl)
  · cases he : s.eng with
    | halted => rw [run_of_halted _ he, run_of_halted _ he]
    | running =>
      obtain ⟨k, rfl⟩ := Nat.exists_eq_add_of_le hn
      rw [run_of_running _ he, run_of_running _ he]
      exact runLoop_add_of_ended (runLoop_enoughCycles_ends he) k

/-- Settles O51, from the run loop with two budgets one after another. -/
theorem suspendedRunResumes : Obligations.SuspendedRunResumes := by
  intro s t m h
  cases EndsIn.of_run h (by simp) with
  | suspended ht =>
    refine ⟨ht, fun n => ?_⟩
    cases he : s.eng with
    | halted =>
      rw [run_of_halted _ he] at h
      cases h
    | running =>
      rw [run_of_running _ he] at h
      rw [run_of_running _ he, run_of_running _ ht]
      exact runLoop_add_of_suspended h n

/-- Settles O52: the state answered is the one whose cycle faults, and a run from it ends in its first cycle. -/
theorem faultedRunFaultsAgain : Obligations.FaultedRunFaultsAgain := by
  intro b s t f h
  cases EndsIn.of_run h (by simp) with
  | faulted _ hstep =>
    have ht := running_of_step_fault hstep
    have hmem := run_mem b s
    rw [h] at hmem
    exact ⟨ht, hstep, hmem, fun n => (run_of_running _ ht).trans (runLoop_of_fault n hstep)⟩

/-- Settles O53: the state answered is the one after a HLT's cycle. -/
theorem haltedRunStandsAfterHlt : Obligations.HaltedRunStandsAfterHlt := by
  intro b s t h
  cases EndsIn.of_run h (by simp) with
  | halted u hr hstep hhalt =>
    obtain ⟨hpc, hread⟩ := step_halting hr hstep hhalt
    have hmem := run_mem b s
    rw [h] at hmem
    refine ⟨hhalt, hmem, by omega, ?_, fun b' => run_of_halted b' hhalt⟩
    rw [hpc, Nat.add_sub_cancel, hread]

/-- Settles O54: the loop runs the image's straight-line code to its HLT or uses up its budget on the way, and 257 cycles
are never used up. -/
theorem loadedCodeRunsToItsHalt : Obligations.LoadedCodeRunsToItsHalt := by
  intro is s t his hload
  have hbytes := bytesAt_engineReset_of_loadProgram hload
  have hr : t.engineReset.eng = .running := rfl
  refine ⟨?_, fun budget => ?_⟩
  · obtain hsus | ⟨u, hu, hpc⟩ := runLoop_straightLine his enoughCycles hr hbytes
    · exact absurd hsus (runLoop_enoughCycles_ends hr)
    · have hrun : run none t.engineReset = (.halted, u) := (run_of_running none hr).trans hu
      have hmem := run_mem none t.engineReset
      rw [hrun] at hmem
      exact ⟨u, hrun, hpc.trans (congrArg (· + 1) (Nat.zero_add _)), hmem⟩
  · rw [run_of_running budget hr]
    obtain hsus | ⟨u, hu, -⟩ := runLoop_straightLine his (budget.getD enoughCycles) hr hbytes
    · rw [hsus]
      rfl
    · rw [hu]
      rfl

/-- Settles O56, from one cycle of the run loop. -/
theorem runRepeatsTheCycle : Obligations.RunRepeatsTheCycle := by
  intro s hr
  refine ⟨run_of_running _ hr, fun n => ⟨fun f hf => ?_, fun t hstep => ⟨fun ht => ?_, fun ht => ?_⟩⟩⟩
  · exact (run_of_running _ hr).trans (runLoop_of_fault n hf)
  · exact (run_of_running _ hr).trans (runLoop_of_halting n hstep ht)
  · rw [run_of_running _ hr, run_of_running _ ht]
    exact runLoop_of_running n hstep ht

end Sys2Proof.Machine
end
